-- ==== Sys2Proof/Word.lean ====
section
/-!
DEFINITION. The two bit-vector types of the engine: a register word and a byte (R6 `XLEN` = 32, R7).
-/

namespace Sys2Proof

/-- A register of the engine, a command word, or an address of a byte space: 32 bits (R6, R7). -/
abbrev Word := BitVec 32

/-- A cell of `S` or `D`, a channel byte, a byte of a Group: 8 bits, unsigned (R7). -/
abbrev Byte := BitVec 8

end Sys2Proof
end

