-- ==== Sys2Proof/Syntax.lean ====
section
/-!
DEFINITION. The six commands of the D2I command set (R46), one constructor per row of spec/opcode_table.json.
No command word carries an operand (R45), so no constructor has an argument.
-/

namespace Sys2Proof

/-- The commands of R46. -/
inductive Instr where
  /-- `EXTSIZE`: the used-region length for a payload length (R54). -/
  | extsize
  /-- `IMGSIZE`: the pixel-buffer length in whole rows, and the image shape (R58). -/
  | imgsize
  /-- `EXPAND`: the group register into the pixel-group registers (R64). -/
  | expand
  /-- `CONTRACT`: the pixel-group registers into the group register (R67). -/
  | contract
  /-- `ENCODE`: a payload in `S` into a pixel buffer in `D` (R80). -/
  | encode
  /-- `DECODE`: a pixel buffer in `S` into a payload in `D` (R90). -/
  | decode
  deriving DecidableEq, Repr

end Sys2Proof
end

