-- ==== Sys2Proof/Decode.lean ====
section
/-!
DEFINITION. From a command word to a command or a rejection by name (R43 to R47), and the encoder (R46).
A command is one 32-bit word (R43), so the decoder reads exactly one word and is total on all 2^32 of them.
-/

namespace Sys2Proof

/-- Why a word is illegal (R47). Both reasons have the same effect on the machine (R51). -/
inductive IllegalWord where
  /-- `rsv0`, bits 31:8, is not 0. -/
  | reservedBits
  /-- `rsv0` is 0 and `opcode`, bits 7:0, is none of the six. -/
  | unknownOpcode
  deriving DecidableEq, Repr

/-- What the decoder answers: one of the six commands, or illegal (R47: "a decoder is therefore total"). -/
inductive Decoded where
  | command (i : Instr)
  | illegal (why : IllegalWord)
  deriving DecidableEq, Repr

/-- Field `opcode` of format C, bits 7:0 (R44). -/
def opcodeField (w : Word) : Nat := w.toNat % 256

/-- Field `rsv0` of format C, bits 31:8 (R44). -/
def rsvField (w : Word) : Nat := w.toNat / 256

/-- The opcode map (R46). -/
def decodeOpcode : Nat → Decoded
  | 0x01 => .command .extsize
  | 0x02 => .command .imgsize
  | 0x03 => .command .expand
  | 0x04 => .command .contract
  | 0x05 => .command .encode
  | 0x06 => .command .decode
  | _ => .illegal .unknownOpcode

/-- R46, R47, in the order of R51: the reserved bits first, then the opcode. -/
def decode (w : Word) : Decoded :=
  if rsvField w ≠ 0 then .illegal .reservedBits else decodeOpcode (opcodeField w)

/-- The opcode of a command (R46). -/
def opcode : Instr → Byte
  | .extsize => 0x01#8
  | .imgsize => 0x02#8
  | .expand => 0x03#8
  | .contract => 0x04#8
  | .encode => 0x05#8
  | .decode => 0x06#8

/-- The command word (R44, R46): `rsv0` = 0 above the opcode. -/
def encode (i : Instr) : Word := (opcode i).setWidth 32

/-- The command the decoder reads from a table row's word of `nbits` bits (the bits above them 0). A word of the hardware
is a 32-bit register value (R43, log 9): a number that needs more bits is no command word. -/
def decodeTableWord (nbits w : Nat) : Option Instr :=
  let v := w % 2 ^ nbits
  if v < 2 ^ 32 then
    match decode (BitVec.ofNat 32 v) with
    | .command i => some i
    | .illegal _ => none
  else none

end Sys2Proof
end

