-- ==== Sys2Proof/Config.lean ====
section
/-!
DEFINITION. What an implementation of the engine fixes (R6), and the free values: what the spec leaves open and nothing
in Lean can evaluate (R76, R118, R130).
-/

namespace Sys2Proof

/-- `ROW_PAD_RULE` (R6, U6): how IMGSIZE rounds a size up to whole rows (R58). -/
inductive RowPadRule where
  /-- The least multiple of the row that is not below the size. -/
  | ceil
  /-- The alternative reading R58 records: always a further row when the size is already a multiple. -/
  | nextRow
  deriving DecidableEq, Repr

namespace Config

/-- `ROW_PAD_RULE = ceil`, the spec's default (R6, R58, D17). DEDUCED, unsafe (log 6): claims that must hold under both
readings are stated over `RowPadRule`. -/
def rowPadRule : RowPadRule := .ceil

/-- `CODE_TOO_LARGE = 3`, the spec's default for the number the source does not list (R6, R100, D10). DEDUCED, unsafe
(log 5). -/
def codeTooLarge : Byte := 3#8

/-- `S_BYTES` (R6, R42): bytes of `S` physically backed. DEDUCED, unsafe (log 7). -/
def sBytes : Nat := 2 ^ 32

/-- `D_BYTES` (R6, R42): bytes of `D` physically backed. DEDUCED, unsafe (log 7). -/
def dBytes : Nat := 2 ^ 32

/-- FREE VALUE (R76, U1, log 3): the pad byte drawn when `k` pad bytes were drawn before it. Nothing constrains it. -/
opaque padByte (k : Nat) : Byte

/-- FREE VALUE (R118, R130, U12, log 4): what the cell of `S` at address `a` holds after reset number `r`, until it is
written. -/
opaque unwrittenS (r a : Nat) : Byte

/-- FREE VALUE (R118, R130, U12, log 4): the same for a cell of `D`. -/
opaque unwrittenD (r a : Nat) : Byte

end Config

end Sys2Proof
end

