-- ==== Sys2Proof/Machine/Flags.lean ====
section
/-!
DEFINITION. The engine has no flags and no condition codes (R25). The outcome of a command is the code in `STATUS` (R14); this
file gives the error kinds and their codes (R100).
-/

namespace Sys2Proof.Machine

/-- The kinds a command can raise (R117). `NotAnImage` and the codes 4, 127 and 128 are never produced (R103, R104). -/
inductive ErrorKind where
  | inputTooSmall
  | outputTooSmall
  | tooLarge
  | invalidArguments
  deriving DecidableEq, Repr

/-- The code 0 of success (R100). -/
def okCode : Byte := 0#8

/-- The `STATUS` code of an error kind (R100). -/
def ErrorKind.code : ErrorKind → Byte
  | .inputTooSmall => 1#8
  | .outputTooSmall => 2#8
  | .tooLarge => Config.codeTooLarge
  | .invalidArguments => 254#8

/-- `STATUS` holds a code in bits 7:0 and 0 in bits 31:8 (R14). -/
def statusWord (code : Byte) : Word := code.setWidth 32

end Sys2Proof.Machine
end

