-- ==== Sys2Proof/Machine/Bus.lean ====
section
/-!
DEFINITION. The host interface as data: the register window (R12, R22, R23), the moves the host can make (R39, R121) and
the answers its reads get.
-/

namespace Sys2Proof.Machine

/-- The two byte spaces (R26, R31). -/
inductive Space where
  | src
  | dst
  deriving DecidableEq, Repr

/-- The 16 word slots of the register window (R12). -/
inductive Slot where
  | cmd | status | srcLen | dstCap | rowPix | rlen | width | height
  | g | p0 | p1 | p2 | p3 | p4 | p5 | reserved
  deriving DecidableEq, Repr

/-- The width of a host register access. Only `word` is part of the interface (R23). -/
inductive AccessWidth where
  | byte
  | half
  | word
  deriving DecidableEq, Repr

/-- Why a host register access is outside the interface (R22, R23). -/
inductive AccessProblem where
  /-- Narrower than 32 bits (R23). -/
  | narrow
  /-- At an offset that is not a multiple of 4 (R23). -/
  | misaligned
  /-- At an offset of 64 or more: outside this hardware (R22). -/
  | outsideWindow
  deriving DecidableEq, Repr

/-- One host step (R39, R121). A command is a register write to `CMD` (R13). -/
inductive HostMove where
  /-- Write `value` to the register at byte offset `offset` of the window. -/
  | writeReg (width : AccessWidth) (offset : Nat) (value : Word)
  /-- Read the register at byte offset `offset` of the window. -/
  | readReg (width : AccessWidth) (offset : Nat)
  /-- Write one cell of a space. -/
  | writeByte (space : Space) (addr : Word) (value : Byte)
  /-- Read one cell of a space. -/
  | readByte (space : Space) (addr : Word)
  /-- The reset event (R118). -/
  | reset
  deriving DecidableEq, Repr

/-- What a host read returned. -/
inductive Reply where
  | reg (slot : Slot) (value : Word)
  | byte (space : Space) (addr : Word) (value : Byte)
  deriving DecidableEq, Repr

/-- Register index to slot (R12). -/
def slotOfIndex : Nat → Option Slot
  | 0 => some .cmd
  | 1 => some .status
  | 2 => some .srcLen
  | 3 => some .dstCap
  | 4 => some .rowPix
  | 5 => some .rlen
  | 6 => some .width
  | 7 => some .height
  | 8 => some .g
  | 9 => some .p0
  | 10 => some .p1
  | 11 => some .p2
  | 12 => some .p3
  | 13 => some .p4
  | 14 => some .p5
  | 15 => some .reserved
  | _ => none

/-- The slot an access reaches: "Register index = offset / 4" (R12). An access outside the interface reaches none (R22, R23);
which problem is named when several hold is a DESIGN CHOICE, safe (log 8). -/
def accessSlot (width : AccessWidth) (offset : Nat) : Except AccessProblem Slot :=
  match width with
  | .byte => .error .narrow
  | .half => .error .narrow
  | .word =>
    if offset % 4 ≠ 0 then .error .misaligned
    else
      match slotOfIndex (offset / 4) with
      | some sl => .ok sl
      | none => .error .outsideWindow

end Sys2Proof.Machine
end

