-- ==== Sys2Proof/Machine/State.lean ====
section
/-!
DEFINITION. The state of the engine as plain data: the registers of R12, the two byte spaces of R26, and the model's own
four fields (what the host does next, what its reads returned, two counters for free values). Reset is R28.
-/

namespace Sys2Proof.Machine

/-- A byte space: the cells written since reset, addresses strictly rising (`Memory.wf`). An address that is not listed holds
no value of the state's: reading it gives a free value (R118, R130, log 4). -/
abbrev Memory := List Host.Cell

/-- The machine. -/
structure State where
  /-- `CMD` (R13): the last command word written. -/
  cmd : Word
  /-- `STATUS` (R14): the outcome code of the last command. -/
  status : Word
  /-- `SRC_LEN` (R15). -/
  srcLen : Word
  /-- `DST_CAP` (R16). -/
  dstCap : Word
  /-- `ROWPIX` (R17). -/
  rowPix : Word
  /-- `RLEN` (R18). -/
  rlen : Word
  /-- `WIDTH` (R19). -/
  width : Word
  /-- `HEIGHT` (R19). -/
  height : Word
  /-- `G` (R20). -/
  g : Word
  /-- `P0` (R21). -/
  p0 : Word
  /-- `P1` (R21). -/
  p1 : Word
  /-- `P2` (R21). -/
  p2 : Word
  /-- `P3` (R21). -/
  p3 : Word
  /-- `P4` (R21). -/
  p4 : Word
  /-- `P5` (R21). -/
  p5 : Word
  /-- The source space `S` (R26). -/
  memS : Memory
  /-- The destination space `D` (R26). -/
  memD : Memory
  /-- The model's own: how many pad bytes were drawn (R76, log 3). -/
  draws : Nat
  /-- The model's own: how many resets happened (R118, log 4). -/
  resets : Nat
  /-- The model's own: the host's moves still to come, the next one first (R39, log 1). -/
  hostMoves : List HostMove
  /-- The model's own: what the host's reads returned, newest first (log 2). -/
  hostReplies : List Reply
  deriving DecidableEq, Repr

/-- No constructor: "The engine itself never *faults*, is never *stuck* and never *hangs*" (R117). A command that fails is a
next state with a code in `STATUS` (R106). -/
inductive Fault where
  deriving DecidableEq, Repr

/-- Why the model has no move. -/
inductive Refusal where
  /-- Raised by an arm of `exec` that has no meaning yet; no arm raises it. Safe. -/
  | notModelled (mnemonic : String)
  /-- Raised by a host register access outside the interface (R22, R23: "a model refuses them"). Safe. -/
  | registerAccess (why : AccessProblem)
  /-- Raised by a command whose `SRC_LEN` or `DST_CAP` is beyond the backed memory (R42). With `Config.sBytes` and
  `Config.dBytes` at 2^32 no state raises it. Safe. -/
  | beyondBackedMemory
  deriving DecidableEq, Repr

/-- What a step or a meaning answers. -/
abbrev Result := Host.Outcome State Fault Refusal

/-- R28, R118: every register 0; no cell of `S` or `D` written. The model's own fields start empty or at 0 (DESIGN CHOICE,
logs 1 to 4). -/
def State.reset : State where
  cmd := 0
  status := 0
  srcLen := 0
  dstCap := 0
  rowPix := 0
  rlen := 0
  width := 0
  height := 0
  g := 0
  p0 := 0
  p1 := 0
  p2 := 0
  p3 := 0
  p4 := 0
  p5 := 0
  memS := []
  memD := []
  draws := 0
  resets := 0
  hostMoves := []
  hostReplies := []

end Sys2Proof.Machine
end

