-- ==== Sys2Proof/Machine/Ops.lean ====
section
/-!
DEFINITION. The named operations over memory and registers, and taking an exception (R106), each once.
-/

namespace Sys2Proof.Machine

/-! ### Byte spaces (R26, R36) -/

/-- The byte a listed cell holds; none for a cell not written since reset (R130). -/
def Memory.get? : Memory → Nat → Option Byte
  | [], _ => none
  | (b, w) :: m, a => if a = b then some w else Memory.get? m a

/-- Write one cell, keeping the addresses strictly rising (R36). -/
def Memory.write : Memory → Nat → Byte → Memory
  | [], a, v => [(a, v)]
  | (b, w) :: m, a, v =>
    if a < b then (a, v) :: (b, w) :: m
    else if a = b then (a, v) :: m
    else (b, w) :: Memory.write m a v

/-- Write `f 0`, `f 1`, …, `f (n - 1)` to the cells `base`, …, `base + n - 1`, in ascending order (R36, D34). -/
def Memory.writeRange (m : Memory) (base : Nat) (f : Nat → Byte) : Nat → Memory
  | 0 => m
  | n + 1 => (Memory.writeRange m base f n).write (base + n) (f n)

/-- The canonical form: addresses strictly rising and inside the 2^32 cells of a space (R26). An unlisted address has no value
in the list (log 4), so no entry can equal one. -/
abbrev Memory.wf (m : Memory) : Prop :=
  m.Pairwise (fun c d => c.1 < d.1) ∧ ∀ c ∈ m, c.1 < 2 ^ 32

namespace State

/-- `MemRead(S, a, 1)` (R8, R36): the byte, or a free value for a cell not written since reset (R130, log 4). -/
def readS (s : State) (a : Nat) : Byte := (s.memS.get? a).getD (Config.unwrittenS s.resets a)

/-- The byte at address `a` of `D`, as the host reads it (R31), or a free value (R130, log 4). -/
def readD (s : State) (a : Nat) : Byte := (s.memD.get? a).getD (Config.unwrittenD s.resets a)

/-! ### Writes of one piece of state -/

def setCmd (w : Word) (s : State) : State := { s with cmd := w }

def setStatus (w : Word) (s : State) : State := { s with status := w }

def setRlen (w : Word) (s : State) : State := { s with rlen := w }

def setImage (width height : Word) (s : State) : State := { s with width := width, height := height }

def setG (w : Word) (s : State) : State := { s with g := w }

/-- Write the six pixel-group registers, register `r` from `f r` (R21). -/
def setPixels (f : Nat → Word) (s : State) : State :=
  { s with p0 := f 0, p1 := f 1, p2 := f 2, p3 := f 3, p4 := f 4, p5 := f 5 }

def setMemS (m : Memory) (s : State) : State := { s with memS := m }

def setMemD (m : Memory) (s : State) : State := { s with memD := m }

def setDraws (k : Nat) (s : State) : State := { s with draws := k }

def setHostMoves (l : List HostMove) (s : State) : State := { s with hostMoves := l }

def pushReply (r : Reply) (s : State) : State := { s with hostReplies := r :: s.hostReplies }

/-! ### The register window as the host sees it (R12, R22, R23) -/

/-- A host read of a slot. No side effect (R23); the reserved slot reads 0 (R22). -/
def readSlot (s : State) : Slot → Word
  | .cmd => s.cmd
  | .status => s.status
  | .srcLen => s.srcLen
  | .dstCap => s.dstCap
  | .rowPix => s.rowPix
  | .rlen => s.rlen
  | .width => s.width
  | .height => s.height
  | .g => s.g
  | .p0 => s.p0
  | .p1 => s.p1
  | .p2 => s.p2
  | .p3 => s.p3
  | .p4 => s.p4
  | .p5 => s.p5
  | .reserved => 0

/-- A host write of a slot other than `CMD`: stored in a read/write register, ignored by a read-only one and by the reserved
slot (R12, R14, R18, R19, R22, R23). A write of `CMD` is a command (`issueCommand`): here it only stores the word. -/
def writeSlot (sl : Slot) (v : Word) (s : State) : State :=
  match sl with
  | .cmd => s.setCmd v
  | .status => s
  | .srcLen => { s with srcLen := v }
  | .dstCap => { s with dstCap := v }
  | .rowPix => { s with rowPix := v }
  | .rlen => s
  | .width => s
  | .height => s
  | .g => s.setG v
  | .p0 => { s with p0 := v }
  | .p1 => { s with p1 := v }
  | .p2 => { s with p2 := v }
  | .p3 => { s with p3 := v }
  | .p4 => { s with p4 := v }
  | .p5 => { s with p5 := v }
  | .reserved => s

/-- Pixel-group register `P r` (R21). -/
def pixelReg (s : State) : Nat → Word
  | 0 => s.p0
  | 1 => s.p1
  | 2 => s.p2
  | 3 => s.p3
  | 4 => s.p4
  | _ => s.p5

/-! ### The end of a command -/

/-- TAKING AN EXCEPTION: `raise K` (R8, R106). `STATUS` gets the code, nothing else changes, and the command ends. There is no
saved state, no mode, no handler and no return (R106, R107). -/
def raise (k : ErrorKind) (s : State) : Result := .next (s.setStatus (statusWord k.code))

/-- A command that does not raise ends with `STATUS` 0 (R51). -/
def finish (s : State) : Result := .next (s.setStatus (statusWord okCode))

/-! ### Reset (R118) and the backed memory (R42) -/

/-- The reset event on a running machine (R118): every register 0 and the contents of `S` and `D` unspecified (no cell counts
as written, and a new reset number makes every cell a new free value). The host's moves and answers are the host's, and draws
stay fresh (DESIGN CHOICE, safe, log 4). -/
def afterReset (s : State) : State :=
  { State.reset with
    draws := s.draws
    resets := s.resets + 1
    hostMoves := s.hostMoves
    hostReplies := s.hostReplies }

/-- R42: the command's lengths are within the backed memory. -/
def backed (s : State) : Bool :=
  decide (s.srcLen.toNat ≤ Config.sBytes) && decide (s.dstCap.toNat ≤ Config.dBytes)

end State

end Sys2Proof.Machine
end

