-- ==== Sys2Proof/Machine/Operands.lean ====
section
/-!
DEFINITION. The constants the source fixes (R5) and the operands of the commands: byte lanes of a register (R20, R21), a Group
(R62), the group functions `expand3` (R63) and `contract24` (R66), and the length header (R60).
-/

namespace Sys2Proof.Machine

/-! ### Constants (R5) -/

/-- `MAX_PAYLOAD`: a payload length is below this. -/
def maxPayload : Nat := 16777216

/-- `GROUP_BYTES`, and `HDR_BYTES`: bytes of a group, and of the length header. -/
def groupBytes : Nat := 3

/-- `GROUP_PIX`: channel bytes of an expanded group. -/
def groupPix : Nat := 24

/-- `PIX_ONE`: the channel byte of a set bit. -/
def pixOne : Byte := 255#8

/-- `PIX_ZERO`: the channel byte of a clear bit, and the zero-fill byte. -/
def pixZero : Byte := 0#8

/-- `THRESH`: a channel byte of at least this reads as a set bit. -/
def thresh : Nat := 128

/-- `MIN_DECODE_LEN`: a pixel buffer shorter than this fails DECODE. -/
def minDecodeLen : Nat := 25

/-- `CHANNELS`: channels of a pixel. -/
def channels : Nat := 3

/-- `ROWPIX_MAX` (R6): the largest row width in pixels. -/
def rowPixMax : Nat := 16777215

/-! ### Lanes of a register (R20, R21) -/

/-- Byte lane `j` of a register, lane 0 the least significant. -/
def lane (w : Word) (j : Nat) : Byte := w.extractLsb' (8 * j) 8

/-- The register whose lanes 0 to 3 are the four bytes. -/
def packLanes (l0 l1 l2 l3 : Byte) : Word :=
  BitVec.ofNat 32 (l0.toNat + (l1.toNat <<< 8) + (l2.toNat <<< 16) + (l3.toNat <<< 24))

/-! ### Groups (R62) -/

/-- A Group: exactly 3 bytes. -/
structure Group where
  b0 : Byte
  b1 : Byte
  b2 : Byte
  deriving DecidableEq, Repr

/-- Byte `i` of a Group, for `i` below 3. -/
def Group.byteAt (gr : Group) : Nat → Byte
  | 0 => gr.b0
  | 1 => gr.b1
  | _ => gr.b2

/-- The Group in `G[23:0]` (R20). -/
def groupOfWord (w : Word) : Group := ⟨lane w 0, lane w 1, lane w 2⟩

/-- A Group in `G`, bits 31:24 written 0 (R20, R67). -/
def wordOfGroup (gr : Group) : Word := packLanes gr.b0 gr.b1 gr.b2 0#8

/-! ### The group functions -/

/-- The channel byte of a bit (R63). -/
def channelOfBit (b : Bool) : Byte := if b then pixOne else pixZero

/-- `expand3` (R63): channel byte `k`, for `k` below 24, is 255 if bit `k mod 8` of byte `k div 8` is set, else 0. -/
def expand3 (gr : Group) (k : Nat) : Byte :=
  channelOfBit ((gr.byteAt (k / 8)).getLsbD (k % 8))

/-- How a channel byte is read: set exactly when its value is at least 128 (R66, R68). -/
def bitOfChannel (c : Byte) : Bool := decide (thresh ≤ c.toNat)

/-- The byte whose bit `bit` is `f bit`: start from 0 and set bits (R66). -/
def byteOfBits (f : Nat → Bool) : Nat → Byte
  | 0 => 0#8
  | n + 1 => if f n then byteOfBits f n ||| (1#8 <<< n) else byteOfBits f n

/-- `contract24` (R66) of the channel bytes `p 0`, …, `p 23`. -/
def contract24 (p : Nat → Byte) : Group :=
  ⟨byteOfBits (fun bit => bitOfChannel (p bit)) 8,
   byteOfBits (fun bit => bitOfChannel (p (8 + bit))) 8,
   byteOfBits (fun bit => bitOfChannel (p (16 + bit))) 8⟩

/-- Channel byte `k` of the pixel-group registers: lane `k mod 4` of `P(k div 4)` (R21). -/
def State.channel (s : State) (k : Nat) : Byte := lane (s.pixelReg (k / 4)) (k % 4)

/-- Pixel-group register `r` of an expanded group (R64). -/
def pixelWord (p : Nat → Byte) (r : Nat) : Word :=
  packLanes (p (4 * r)) (p (4 * r + 1)) (p (4 * r + 2)) (p (4 * r + 3))

/-! ### The length header (R60) -/

/-- The three header bytes of a length, least significant first. -/
def headerBytes (n : Nat) : Group :=
  ⟨BitVec.ofNat 8 n, BitVec.ofNat 8 (n >>> 8), BitVec.ofNat 8 (n >>> 16)⟩

/-- The length three header bytes declare. -/
def headerLen (gr : Group) : Nat :=
  gr.b0.toNat + (gr.b1.toNat <<< 8) + (gr.b2.toNat <<< 16)

/-! ### The image interpretation of a pixel buffer (R98) -/

/-- Row, pixel in the row and channel of the channel byte at address `a`, for rows of `width` pixels. The engine does nothing
with it (R98). -/
def imagePosition (width a : Nat) : Nat × Nat × Nat :=
  (a / (channels * width), a / channels % width, a % channels)

end Sys2Proof.Machine
end

