-- ==== Sys2Proof/Machine/SizeArithmetic.lean ====
section
/-!
DEFINITION. The SizeArithmetic block: `extendedSize` (R52), EXTSIZE (R54) and IMGSIZE (R58).
-/

namespace Sys2Proof.Machine

/-- `extendedSize` (R52). -/
def extendedSize (n : Nat) : Except ErrorKind Nat :=
  if maxPayload ≤ n then .error .tooLarge
  else .ok (((3 + n + 2) - (3 + n + 2) % 3) * 8)

/-- A size of `e` bytes rounded up to whole rows (R58), under either reading of `ROW_PAD_RULE`. -/
def padToRows : RowPadRule → Nat → Nat → Nat
  | .ceil, e, rowBytes => (e + rowBytes - 1) / rowBytes * rowBytes
  | .nextRow, e, rowBytes => (e / rowBytes + 1) * rowBytes

/-- EXTSIZE (R54). -/
def execExtsize (s : State) : Result :=
  match extendedSize s.srcLen.toNat with
  | .error k => s.raise k
  | .ok e => (s.setRlen (BitVec.ofNat 32 e)).finish

/-- IMGSIZE under a given rounding rule (R58). -/
def imgsizeWith (rule : RowPadRule) (s : State) : Result :=
  if s.rowPix.toNat = 0 ∨ rowPixMax < s.rowPix.toNat then s.raise .invalidArguments
  else
    match extendedSize s.srcLen.toNat with
    | .error k => s.raise k
    | .ok e =>
      let rowBytes := channels * s.rowPix.toNat
      let len := padToRows rule e rowBytes
      ((s.setRlen (BitVec.ofNat 32 len)).setImage s.rowPix (BitVec.ofNat 32 (len / rowBytes))).finish

/-- IMGSIZE (R58), with the rounding rule of this machine (R6). -/
def execImgsize (s : State) : Result := imgsizeWith Config.rowPadRule s

end Sys2Proof.Machine
end

