-- ==== Sys2Proof/Machine/BufferDecode.lean ====
section
/-!
DEFINITION. The BufferDecoder block: DECODE (R83 to R90).
-/

namespace Sys2Proof.Machine

/-- The length the header in `S[0..24)` declares (R85). -/
def declaredLen (rd : Nat → Byte) : Nat := headerLen (contract24 rd)

/-- Group `j` of the pixel buffer after the header, contracted (R88). -/
def decodedGroup (rd : Nat → Byte) (j : Nat) : Group := contract24 (fun k => rd (24 + 24 * j + k))

/-- The first `count` groups of a payload of `len` bytes (R88): the bytes with an index below `len` are written, the surplus of
the last group is not. -/
def writeDecoded (rd : Nat → Byte) (len : Nat) : Nat → Memory → Memory
  | 0, m => m
  | j + 1, m =>
    (writeDecoded rd len j m).writeRange (3 * j) (decodedGroup rd j).byteAt (min groupBytes (len - 3 * j))

/-- DECODE (R90): the checks in the order of R105, then the groups. -/
def execDecode (s : State) : Result :=
  if s.srcLen.toNat < minDecodeLen then s.raise .inputTooSmall
  else
    let len := declaredLen s.readS
    match extendedSize len with
    | .error k => s.raise k
    | .ok expected =>
      if s.srcLen.toNat < expected then s.raise .inputTooSmall
      else if s.dstCap.toNat < len then s.raise .outputTooSmall
      else
        ((s.setMemD (writeDecoded s.readS len ((len + 2) / 3) s.memD)).setRlen (BitVec.ofNat 32 len)).finish

end Sys2Proof.Machine
end

