-- ==== Sys2Proof/Machine/BufferEncode.lean ====
section
/-!
DEFINITION. The BufferEncoder block: ENCODE (R71 to R80). The parts of the output are written in the order of R80: header
group, leading full groups, last group, zero-fill.
-/

namespace Sys2Proof.Machine

/-- The pad draw of one ENCODE (R76): a free input of the command step. -/
structure PadDraw where
  pad0 : Byte
  pad1 : Byte
  deriving DecidableEq, Repr

/-- How many payload bytes the leading groups hold (R74); meaningful for `n ≥ 1`. -/
def fullBytes (n : Nat) : Nat := (n - 1) - (n - 1) % 3

/-- The header group (R73). -/
def writeHeader (n : Nat) (m : Memory) : Memory := m.writeRange 0 (expand3 (headerBytes n)) groupPix

/-- The first `count` leading groups (R74): group `j` of the payload to `D[24 + 24j .. 24 + 24j + 24)`. -/
def writeFullGroups (rd : Nat → Byte) : Nat → Memory → Memory
  | 0, m => m
  | j + 1, m =>
    (writeFullGroups rd j m).writeRange (24 + 24 * j)
      (expand3 ⟨rd (3 * j), rd (3 * j + 1), rd (3 * j + 2)⟩) groupPix

/-- The last group (R75): the payload bytes in range, the rest from the pad draw. The remainder is 1, 2 or 3. -/
def lastGroup (rd : Nat → Byte) (pad : PadDraw) (n : Nat) : Group :=
  let full := fullBytes n
  let rem := n - full
  ⟨rd full,
   if 2 ≤ rem then rd (full + 1) else pad.pad0,
   if rem = 3 then rd (full + 2) else pad.pad1⟩

/-- The payload groups (R74, R75); none for the empty payload (R77). -/
def writePayload (rd : Nat → Byte) (pad : PadDraw) (n : Nat) (m : Memory) : Memory :=
  if n = 0 then m
  else
    (writeFullGroups rd (fullBytes n / 3) m).writeRange (24 + 8 * fullBytes n)
      (expand3 (lastGroup rd pad n)) groupPix

/-- Zero-fill (R78): the cells from `used` to `cap`. -/
def zeroFill (used cap : Nat) (m : Memory) : Memory := m.writeRange used (fun _ => pixZero) (cap - used)

/-- The whole output of a successful ENCODE (R80). -/
def encodeOutput (rd : Nat → Byte) (pad : PadDraw) (n used cap : Nat) (m : Memory) : Memory :=
  zeroFill used cap (writePayload rd pad n (writeHeader n m))

/-- How many pad bytes an ENCODE of `n` payload bytes takes from the draw counter: the pair of R76 where the last group is
incomplete, none otherwise. -/
def drawsUsed (n : Nat) : Nat := if n % 3 = 0 then 0 else 2

/-- ENCODE with a given pad draw (R80). "The step takes one extra input, the pad draw (two bytes)" (R51). -/
def encodeWith (pad : PadDraw) (s : State) : Result :=
  match extendedSize s.srcLen.toNat with
  | .error k => s.raise k
  | .ok used =>
    if s.dstCap.toNat < used then s.raise .outputTooSmall
    else
      (((s.setMemD (encodeOutput s.readS pad s.srcLen.toNat used s.dstCap.toNat s.memD)).setDraws
        (s.draws + drawsUsed s.srcLen.toNat)).setRlen (BitVec.ofNat 32 used)).finish

/-- The pad draw of the next ENCODE: two free bytes (R76, log 3). -/
def State.nextPad (s : State) : PadDraw := ⟨Config.padByte s.draws, Config.padByte (s.draws + 1)⟩

/-- ENCODE (R80). -/
def execEncode (s : State) : Result := encodeWith s.nextPad s

end Sys2Proof.Machine
end

