-- ==== Sys2Proof/Machine/GroupOps.lean ====
section
/-!
DEFINITION. The GroupExpander and GroupContractor blocks on the registers: EXPAND (R64) and CONTRACT (R67).
-/

namespace Sys2Proof.Machine

/-- EXPAND (R64): `G[23:0]` into `P0`..`P5`. It cannot fail. -/
def execExpand (s : State) : Result :=
  (s.setPixels (pixelWord (expand3 (groupOfWord s.g)))).finish

/-- CONTRACT (R67): `P0`..`P5` into `G`. It cannot fail. -/
def execContract (s : State) : Result :=
  (s.setG (wordOfGroup (contract24 s.channel))).finish

end Sys2Proof.Machine
end

