-- ==== Sys2Proof/Machine/Dispatch.lean ====
section
/-!
DEFINITION. One arm per command (R51).
-/

namespace Sys2Proof.Machine

/-- What a command does once its word is in `CMD` (R51). -/
def exec (i : Instr) (s : State) : Host.Outcome State Fault Refusal :=
  match i with
  | .extsize => Sys2Proof.Machine.execExtsize s
  | .imgsize => Sys2Proof.Machine.execImgsize s
  | .expand => Sys2Proof.Machine.execExpand s
  | .contract => Sys2Proof.Machine.execContract s
  | .encode => Sys2Proof.Machine.execEncode s
  | .decode => Sys2Proof.Machine.execDecode s

end Sys2Proof.Machine
end

