-- ==== Sys2Proof/Machine/HostPort.lean ====
section
/-!
DEFINITION. What one host move does (R39, R121), the command step among them (R51).
-/

namespace Sys2Proof.Machine

/-- The step a host write of `w` to `CMD` performs (R13, R51): `CMD` gets the word, the word is decoded, the command runs or
the illegal-command rule applies (R47). A command beyond the backed memory has no meaning (R42). -/
def issueCommand (w : Word) (s : State) : Result :=
  match decode w with
  | .illegal _ => (s.setCmd w).raise .invalidArguments
  | .command i => if s.backed then exec i (s.setCmd w) else .refused .beyondBackedMemory

/-- A host register write (R12, R22, R23). -/
def hostWriteReg (width : AccessWidth) (offset : Nat) (v : Word) (s : State) : Result :=
  match accessSlot width offset with
  | .error why => .refused (.registerAccess why)
  | .ok sl => if sl = .cmd then issueCommand v s else .next (s.writeSlot sl v)

/-- A host register read (R12, R22, R23): the value goes to the host, nothing else happens. -/
def hostReadReg (width : AccessWidth) (offset : Nat) (s : State) : Result :=
  match accessSlot width offset with
  | .error why => .refused (.registerAccess why)
  | .ok sl => .next (s.pushReply (.reg sl (s.readSlot sl)))

/-- A host byte write to `S` or `D` (R26, R31). -/
def hostWriteByte (sp : Space) (a : Word) (v : Byte) (s : State) : Result :=
  match sp with
  | .src => .next (s.setMemS (s.memS.write a.toNat v))
  | .dst => .next (s.setMemD (s.memD.write a.toNat v))

/-- A host byte read from `S` or `D` (R26, R31). -/
def hostReadByte (sp : Space) (a : Word) (s : State) : Result :=
  match sp with
  | .src => .next (s.pushReply (.byte .src a (s.readS a.toNat)))
  | .dst => .next (s.pushReply (.byte .dst a (s.readD a.toNat)))

/-- One host move (R39). -/
def hostMove (mv : HostMove) (s : State) : Result :=
  match mv with
  | .writeReg width offset v => hostWriteReg width offset v s
  | .readReg width offset => hostReadReg width offset s
  | .writeByte sp a v => hostWriteByte sp a v s
  | .readByte sp a => hostReadByte sp a s
  | .reset => .next s.afterReset

/-- The host move that issues a command word: a 32-bit write at offset 0x00 (R12, R49). -/
def commandMove (w : Word) : HostMove := .writeReg .word 0x00 w

/-- The command word of a table row: `nbits` bits of `w`, the bits above them 0 (R43, log 9). -/
def tableWord (nbits w : Nat) : Word := BitVec.ofNat 32 (w % 2 ^ nbits)

end Sys2Proof.Machine
end

