-- ==== Sys2Proof/Machine/Step.lean ====
section
/-!
DEFINITION. One step of the machine: the host's next move. The engine fetches nothing (R11); between two moves it is idle and
changes no state (R11), which is the step of an empty queue (log 1).
-/

namespace Sys2Proof.Machine

/-- One step (R11, R39): the host's next move on the engine, or idleness. -/
def step (s : State) : Host.Outcome State Fault Refusal :=
  match s.hostMoves with
  | [] => .next s
  | mv :: rest => hostMove mv (s.setHostMoves rest)

/-- `s` with the host's next move a write of the table word to `CMD`, so that the next step runs exactly that command (log 9).
What the host was to do after it stays. -/
def State.withFetchWord (s : State) (nbits w : Nat) : State :=
  s.setHostMoves (commandMove (tableWord nbits w) :: s.hostMoves)

end Sys2Proof.Machine
end

