-- ==== Sys2Proof/Safety.lean ====
section
/-!
DEFINITION. What holds in every state a run from reset reaches, and is kept by every step: the invariants the spec's prose
states about the whole machine.
-/

namespace Sys2Proof.Machine.State

/-- The values `STATUS` can hold (R14, R100, R103, R104). -/
def statusLegal (s : State) : Prop :=
  s.status = 0#32 ∨ s.status = 1#32 ∨ s.status = 2#32 ∨ s.status = statusWord Config.codeTooLarge ∨ s.status = 254#32

/-- The bounds of the result registers: `RLEN` below 184,549,389 (R18, R57), `WIDTH` at most 16,777,215, and an image of
`WIDTH` × `HEIGHT` pixels no larger than the largest padded buffer (R19, R57, R58). -/
def resultsBounded (s : State) : Prop :=
  s.rlen.toNat < 184549389 ∧ s.width.toNat ≤ rowPixMax ∧
    channels * (s.width.toNat * s.height.toNat) < 184549389 ∧ (s.width = 0#32 ↔ s.height = 0#32)

/-- Both byte spaces are in canonical form (R26, log 4). -/
def memoriesCanonical (s : State) : Prop := s.memS.wf ∧ s.memD.wf

/-- The invariant of the machine. -/
structure Inv (s : State) : Prop where
  status : s.statusLegal
  results : s.resultsBounded
  memories : s.memoriesCanonical

end Sys2Proof.Machine.State
end

