-- ==== Sys2Proof/WellFormed.lean ====
section
/-!
DEFINITION. Which instructions and which host moves are well formed. A command word carries no operand (R45), so every
command is well formed; a host register access is well formed when it is an aligned 32-bit access inside the window
(R22, R23).
-/

namespace Sys2Proof

/-- R45: there is no operand to check. -/
def Instr.wellFormed : Instr → Bool
  | .extsize => true
  | .imgsize => true
  | .expand => true
  | .contract => true
  | .encode => true
  | .decode => true

/-- R22, R23: the host moves that are part of the interface. -/
def Machine.HostMove.wellFormed : Machine.HostMove → Bool
  | .writeReg width offset _ => width == .word && offset % 4 == 0 && decide (offset < 64)
  | .readReg width offset => width == .word && offset % 4 == 0 && decide (offset < 64)
  | .writeByte _ _ _ => true
  | .readByte _ _ => true
  | .reset => true

end Sys2Proof
end

