-- ==== Sys2Proof/Certificates/Slice0/Obligations.lean ====
section
/-!
DEFINITION. The statements for the provers. Where a docstring says "model's choice" it names the log entry; "spec's decision"
points to `92_eei_decisions.md`. `exec` runs a command once its word is in `CMD`; `step` is one host move.
-/

open Sys2Proof
open Sys2Proof.Machine

namespace Sys2Proof.Claim

/-! ### Words the statements use, written out from the spec and not from the model -/

/-- The closed form of the used-region length (R53). -/
def usedLen (n : Nat) : Nat := 24 * (1 + (n + 2) / 3)

/-- The channel byte of a bit (R63). -/
def pix (b : Bool) : Byte := if b then 255#8 else 0#8

/-- A channel byte reads as a set bit (R66, R68). -/
def isSet (c : Byte) : Bool := decide (128 ≤ c.toNat)

/-- ENCODE's two checks pass (R72). -/
def encodeFits (s : State) : Prop := s.srcLen.toNat < 16777216 ∧ usedLen s.srcLen.toNat ≤ s.dstCap.toNat

/-- The length the header in `S[0..24)` declares, bit by bit (R85): bit `k` is set when `S[k]` is at least 128. -/
def declares (s : State) (len : Nat) : Prop :=
  len < 16777216 ∧ ∀ k < 24, len.testBit k = isSet (s.readS k)

/-- DECODE's three checks pass for a header that declares `len` (R84, R86, R87). -/
def decodeFits (s : State) (len : Nat) : Prop :=
  declares s len ∧ 25 ≤ s.srcLen.toNat ∧ usedLen len ≤ s.srcLen.toNat ∧ len ≤ s.dstCap.toNat

/-- The opcode table (R46): the full word of each command. -/
def matchWord : Instr → Word
  | .extsize => 0x00000001#32
  | .imgsize => 0x00000002#32
  | .expand => 0x00000003#32
  | .contract => 0x00000004#32
  | .encode => 0x00000005#32
  | .decode => 0x00000006#32

/-- The word is one of the six (R46): bits 31:8 are 0 and bits 7:0 are 0x01 to 0x06. -/
def legalWord (w : Word) : Prop :=
  w.extractLsb' 8 24 = 0#24 ∧ 0x01#8 ≤ w.extractLsb' 0 8 ∧ w.extractLsb' 0 8 ≤ 0x06#8

/-- Byte `j` of the stream header, payload, padding (R81). With one payload byte in the last group the padding is `pad0`,
`pad1`; with two it is `pad1`. -/
def streamByte (s : State) (pad : PadDraw) (j : Nat) : Byte :=
  if j < 3 then BitVec.ofNat 8 (s.srcLen.toNat >>> (8 * j))
  else if j < 3 + s.srcLen.toNat then s.readS (j - 3)
  else if s.srcLen.toNat % 3 = 1 ∧ j = 3 + s.srcLen.toNat then pad.pad0
  else pad.pad1

/-- Which kind each command raises and when (R101, R105), for a header that declares `len`. -/
def raises (i : Instr) (s : State) (len : Nat) : Option ErrorKind :=
  match i with
  | .extsize => if 16777216 ≤ s.srcLen.toNat then some .tooLarge else none
  | .imgsize =>
    if s.rowPix.toNat = 0 ∨ 16777216 ≤ s.rowPix.toNat then some .invalidArguments
    else if 16777216 ≤ s.srcLen.toNat then some .tooLarge else none
  | .expand => none
  | .contract => none
  | .encode =>
    if 16777216 ≤ s.srcLen.toNat then some .tooLarge
    else if s.dstCap.toNat < usedLen s.srcLen.toNat then some .outputTooSmall else none
  | .decode =>
    if s.srcLen.toNat < 25 then some .inputTooSmall
    else if s.srcLen.toNat < usedLen len then some .inputTooSmall
    else if s.dstCap.toNat < len then some .outputTooSmall else none

/-- The numbers of R100. -/
def kindNumber : ErrorKind → Word
  | .inputTooSmall => 1#32
  | .outputTooSmall => 2#32
  | .tooLarge => 3#32
  | .invalidArguments => 254#32

/-- The slots a host write is stored in (R12): CMD apart, the read/write registers. -/
def storesHostWrite : Slot → Bool
  | .cmd => true
  | .status => false
  | .srcLen => true
  | .dstCap => true
  | .rowPix => true
  | .rlen => false
  | .width => false
  | .height => false
  | .g => true
  | .p0 => true
  | .p1 => true
  | .p2 => true
  | .p3 => true
  | .p4 => true
  | .p5 => true
  | .reserved => false

/-- Cells a drawn pad byte can reach (R76). -/
def padCell (n a : Nat) : Prop :=
  (n % 3 = 1 ∧ usedLen n - 16 ≤ a ∧ a < usedLen n) ∨ (n % 3 = 2 ∧ usedLen n - 8 ≤ a ∧ a < usedLen n)

end Sys2Proof.Claim

open Sys2Proof.Claim

/-! ### Encoding and the command step -/

/-- Decoding the word of a command gives the command back, for every command (R46). -/
def Obligations.EncodedCommandDecodesToItself : Prop :=
  ∀ i : Instr, i.wellFormed = true → decode (encode i) = .command i

/-- R46: a word selects a command if and only if bits 31:8 are 0 and bits 7:0 are its opcode; equivalently the word under the
full mask is the match word of the table. -/
def Obligations.DecoderAcceptsExactlyTheSixWords : Prop :=
  ∀ (w : Word) (i : Instr),
    (decode w = .command i ↔ w.extractLsb' 8 24 = 0#24 ∧ w.extractLsb' 0 8 = opcode i) ∧
    (decode w = .command i ↔ w &&& 0xFFFFFFFF#32 = matchWord i) ∧
    ((∃ j, decode w = .command j) ↔ legalWord w)

/-- The six words of R46, written out bit by bit, decode to the commands they stand for. -/
def Obligations.TableWordsDecodeToTheirCommands : Prop :=
  decode 0b00000000000000000000000000000001#32 = .command .extsize ∧
  decode 0b00000000000000000000000000000010#32 = .command .imgsize ∧
  decode 0b00000000000000000000000000000011#32 = .command .expand ∧
  decode 0b00000000000000000000000000000100#32 = .command .contract ∧
  decode 0b00000000000000000000000000000101#32 = .command .encode ∧
  decode 0b00000000000000000000000000000110#32 = .command .decode

/-- R13, R51: a host write to `CMD` is the command step of the word; when the word is a command, the step puts the word in `CMD`
and runs the command. That the host's moves stand in a queue is the model's choice (log 1), and so is `withFetchWord` (log 9),
which makes a word the next move; that a legal word runs in every state rests on both spaces being backed in full (log 7): with
smaller memories R42 would refuse some. -/
def Obligations.StepRunsTheDecodedCommand : Prop :=
  (∀ (s : State) (rest : List HostMove) (w : Word),
    s.hostMoves = commandMove w :: rest → step s = issueCommand w { s with hostMoves := rest }) ∧
  (∀ (s : State) (rest : List HostMove) (w : Word) (i : Instr),
    s.hostMoves = commandMove w :: rest → decode w = .command i → i.wellFormed = true →
      step s = exec i { s with hostMoves := rest, cmd := w }) ∧
  (∀ (s : State) (i : Instr), step (s.withFetchWord 32 (encode i).toNat) = exec i { s with cmd := encode i })

/-- R47: every word but the six is illegal, the all-zero and the all-ones word and every word with a bit set in 31:8 among
them; the command step of an illegal word stores the word in `CMD`, sets `STATUS` to 254 and changes nothing else. -/
def Obligations.IllegalWordSetsStatus254AndNothingElse : Prop :=
  (∀ (s : State) (w : Word), (∀ i, w ≠ matchWord i) →
    (∃ why, decode w = .illegal why) ∧ issueCommand w s = .next { s with cmd := w, status := 254#32 }) ∧
  (∀ w : Word, (∀ i, w ≠ matchWord i) ↔ ¬ legalWord w) ∧
  ¬ legalWord 0x00000000#32 ∧ ¬ legalWord 0xFFFFFFFF#32 ∧
  (∀ w : Word, w.extractLsb' 8 24 ≠ 0#24 → ¬ legalWord w) ∧
  (∀ op : Byte, (op = 0x00#8 ∨ 0x07#8 ≤ op) → ¬ legalWord (op.setWidth 32))

/-- R11: with no host move to make the engine is idle and changes no state (that the step of an empty queue is this idleness
is the model's choice, log 1). -/
def Obligations.IdleEngineChangesNothing : Prop :=
  ∀ s : State, s.hostMoves = [] → step s = .next s

/-! ### Size arithmetic -/

/-- R53 (derived by the spec from R52): the closed form, and its consequences. -/
def Obligations.ExtendedSizeClosedForm : Prop :=
  (∀ n, n < 16777216 → extendedSize n = .ok (24 * (1 + (n + 2) / 3))) ∧
  (∀ n, 16777216 ≤ n → extendedSize n = .error .tooLarge) ∧
  (∀ n e, extendedSize n = .ok e → 24 ∣ e ∧ e ≤ 134217744) ∧
  (∀ n m e f, extendedSize n = .ok e → extendedSize m = .ok f → n ≤ m → e ≤ f) ∧
  (∀ n e f, extendedSize n = .ok e → extendedSize (n + 3) = .ok f → f = e + 24)

/-- R56 (derived by the spec from R53): the lengths that have a given size, and the largest payload that fits. -/
def Obligations.ExtendedSizePreimages : Prop :=
  (∀ L n, extendedSize n = .ok L ↔
    (L = 24 ∧ n = 0) ∨
    ∃ g, 1 ≤ g ∧ g ≤ 5592405 ∧ L = 24 * (1 + g) ∧ (n = 3 * g - 2 ∨ n = 3 * g - 1 ∨ n = 3 * g)) ∧
  (∀ L n, 24 ≤ L → ((∃ e, extendedSize n = .ok e ∧ e ≤ L) ↔ n ≤ min (3 * (L / 24 - 1)) 16777215))

/-- R54: EXTSIZE. The number 3 of `TooLarge` is the spec's own (D10, log 5). -/
def Obligations.ExtsizeWritesTheUsedLength : Prop :=
  decode 0x00000001#32 = .command .extsize ∧
  ∀ s : State,
    (s.srcLen.toNat < 16777216 →
      ((3 + s.srcLen.toNat + 2) - (3 + s.srcLen.toNat + 2) % 3) * 8 < 2 ^ 28 ∧
      exec .extsize s = .next { s with
        rlen := BitVec.ofNat 32 (((3 + s.srcLen.toNat + 2) - (3 + s.srcLen.toNat + 2) % 3) * 8), status := 0#32 }) ∧
    (16777216 ≤ s.srcLen.toNat → exec .extsize s = .next { s with status := 3#32 })

/-- R58: IMGSIZE. The rounding `ceil` and the numbers 254 and 3 are the spec's own (D17, D10, logs 5 and 6). -/
def Obligations.ImgsizeWritesRowsAndShape : Prop :=
  decode 0x00000002#32 = .command .imgsize ∧
  ∀ s : State,
    (1 ≤ s.rowPix.toNat → s.rowPix.toNat ≤ 16777215 → s.srcLen.toNat < 16777216 →
      ∃ L, exec .imgsize s = .next { s with
          rlen := BitVec.ofNat 32 L, width := s.rowPix
          height := BitVec.ofNat 32 (L / (3 * s.rowPix.toNat)), status := 0#32 } ∧
        L = (usedLen s.srcLen.toNat + 3 * s.rowPix.toNat - 1) / (3 * s.rowPix.toNat) * (3 * s.rowPix.toNat) ∧
        L % (3 * s.rowPix.toNat) = 0 ∧ usedLen s.srcLen.toNat ≤ L ∧ L < usedLen s.srcLen.toNat + 3 * s.rowPix.toNat ∧
        (L = usedLen s.srcLen.toNat ↔ usedLen s.srcLen.toNat % (3 * s.rowPix.toNat) = 0) ∧
        L < 2 ^ 28 ∧ 1 ≤ L / (3 * s.rowPix.toNat) ∧ s.rowPix.toNat * (L / (3 * s.rowPix.toNat)) * 3 = L) ∧
    (s.rowPix.toNat = 0 ∨ 16777216 ≤ s.rowPix.toNat → exec .imgsize s = .next { s with status := 254#32 }) ∧
    (1 ≤ s.rowPix.toNat → s.rowPix.toNat ≤ 16777215 → 16777216 ≤ s.srcLen.toNat →
      exec .imgsize s = .next { s with status := 3#32 })

/-- What R58 says a claim may rely on under both readings of the row rounding (U6): the length is a multiple of the row and
`e ≤ L ≤ e + rowBytes`. -/
def Obligations.RowPaddingUnderEitherReading : Prop :=
  ∀ (rule : RowPadRule) (s : State), 1 ≤ s.rowPix.toNat → s.rowPix.toNat ≤ 16777215 → s.srcLen.toNat < 16777216 →
    ∃ L, imgsizeWith rule s = .next { s with
        rlen := BitVec.ofNat 32 L, width := s.rowPix
        height := BitVec.ofNat 32 (L / (3 * s.rowPix.toNat)), status := 0#32 } ∧
      3 * s.rowPix.toNat ∣ L ∧ usedLen s.srcLen.toNat ≤ L ∧ L ≤ usedLen s.srcLen.toNat + 3 * s.rowPix.toNat ∧ L < 2 ^ 32

/-- R98: after a successful IMGSIZE every channel byte of the buffer of `RLEN` bytes lies in the image: row below `HEIGHT`,
pixel below `WIDTH`, channel below 3, row-major and without gaps. -/
def Obligations.ImageInterpretationCoversTheBuffer : Prop :=
  ∀ s : State, 1 ≤ s.rowPix.toNat → s.rowPix.toNat ≤ 16777215 → s.srcLen.toNat < 16777216 →
    ∃ t, exec .imgsize s = .next t ∧
      ∀ a, a < t.rlen.toNat →
        imagePosition t.width.toNat a = (a / (3 * t.width.toNat), a / 3 % t.width.toNat, a % 3) ∧
        (imagePosition t.width.toNat a).1 < t.height.toNat ∧
        (imagePosition t.width.toNat a).2.1 < t.width.toNat ∧
        (imagePosition t.width.toNat a).2.2 < 3 ∧
        a = ((imagePosition t.width.toNat a).1 * t.width.toNat + (imagePosition t.width.toNat a).2.1) * 3 +
          (imagePosition t.width.toNat a).2.2

/-! ### Group operations -/

/-- R63: `expand3` bit by bit. -/
def Obligations.ExpandTurnsBitsIntoChannelBytes : Prop :=
  ∀ (gr : Group) (i bit : Nat), i < 3 → bit < 8 →
    expand3 gr (i * 8 + bit) = if ((gr.byteAt i) >>> bit) &&& 1#8 = 1#8 then 255#8 else 0#8

/-- R65 (derived by the spec from R63 and R62): `expand3` is injective, gives only 0 and 255, and its byte `k` depends only on
bit `k`. -/
def Obligations.ExpandIsInjectiveAndBitwise : Prop :=
  (∀ g h : Group, (∀ k < 24, expand3 g k = expand3 h k) → g = h) ∧
  (∀ (g : Group) (k : Nat), expand3 g k = 0#8 ∨ expand3 g k = 255#8) ∧
  (∀ (g h : Group) (k : Nat), k < 24 → (headerLen g).testBit k = (headerLen h).testBit k → expand3 g k = expand3 h k)

/-- R64: EXPAND. Channel byte lane `k mod 4` of `P(k div 4)` becomes 0xFF if bit `k` of `G` is 1, else 0x00; only the six
pixel-group registers and `STATUS` change. -/
def Obligations.ExpandWritesThePixelRegisters : Prop :=
  decode 0x00000003#32 = .command .expand ∧
  ∀ s : State, ∃ t, exec .expand s = .next t ∧
    (∀ k < 24, (t.pixelReg (k / 4)).extractLsb' (8 * (k % 4)) 8 = if s.g.getLsbD k then 0xFF#8 else 0x00#8) ∧
    t = { s with p0 := t.p0, p1 := t.p1, p2 := t.p2, p3 := t.p3, p4 := t.p4, p5 := t.p5, status := 0#32 }

/-- R66, R68: `contract24` bit by bit. A channel byte is read as a set bit exactly when it is at least 128, which is its
most-significant bit: 0 and 127 read as 0, 128 and 255 as 1. -/
def Obligations.ContractThresholdsAt128 : Prop :=
  (∀ (p : Nat → Byte) (i bit : Nat), i < 3 → bit < 8 →
    ((contract24 p).byteAt i).getLsbD bit = decide (128 ≤ (p (i * 8 + bit)).toNat) ∧
    ((contract24 p).byteAt i).getLsbD bit = (p (i * 8 + bit)).getLsbD 7) ∧
  (∀ (p : Nat → Byte) (i bit : Nat), i < 3 → bit < 8 →
    (p (i * 8 + bit) = 0#8 ∨ p (i * 8 + bit) = 127#8 → ((contract24 p).byteAt i).getLsbD bit = false) ∧
    (p (i * 8 + bit) = 128#8 ∨ p (i * 8 + bit) = 255#8 → ((contract24 p).byteAt i).getLsbD bit = true))

/-- R67: CONTRACT. Bit `k` of `G` becomes bit 7 of lane `k mod 4` of `P(k div 4)`, bits 31:24 become 0; only `G` and `STATUS`
change. -/
def Obligations.ContractWritesTheGroupRegister : Prop :=
  decode 0x00000004#32 = .command .contract ∧
  ∀ s : State, ∃ t, exec .contract s = .next t ∧
    (∀ k < 24, t.g.getLsbD k = (s.pixelReg (k / 4)).getLsbD (8 * (k % 4) + 7)) ∧
    t.g.extractLsb' 24 8 = 0#8 ∧
    t = { s with g := t.g, status := 0#32 }

/-- R69 (derived by the spec from R63 and R66): contracting undoes expanding; expanding after contracting projects every channel
byte to 0 or 255, and is the identity exactly on bytes that are 0 or 255. -/
def Obligations.ContractUndoesExpand : Prop :=
  (∀ g : Group, contract24 (expand3 g) = g) ∧
  (∀ (p : Nat → Byte) (k : Nat), k < 24 → expand3 (contract24 p) k = if 128 ≤ (p k).toNat then 255#8 else 0#8) ∧
  (∀ p : Nat → Byte, (∀ k < 24, expand3 (contract24 p) k = p k) ↔ ∀ k < 24, p k = 0#8 ∨ p k = 255#8)

/-- R69 (c): in register terms. EXPAND then CONTRACT clears `G[31:24]` only; CONTRACT then EXPAND replaces every lane by 0x00 or
0xFF according to its bit 7. -/
def Obligations.ExpandThenContractClearsOnlyTheTopByte : Prop :=
  ∀ s : State,
    (∃ t u, exec .expand s = .next t ∧ exec .contract t = .next u ∧ u.g = s.g &&& 0x00FFFFFF#32) ∧
    (∃ t u, exec .contract s = .next t ∧ exec .expand t = .next u ∧
      ∀ k < 24, u.channel k = if (s.channel k).getLsbD 7 then 0xFF#8 else 0x00#8)

/-- R60: the length header as numbers, both directions; the size check of DECODE cannot fail on it; in register terms the header
group of `n` is `G = n`. -/
def Obligations.LengthHeaderRoundTrip : Prop :=
  (∀ n, n < 16777216 →
    (headerBytes n).b0.toNat = n &&& 0xFF ∧ (headerBytes n).b1.toNat = (n >>> 8) &&& 0xFF ∧
    (headerBytes n).b2.toNat = (n >>> 16) &&& 0xFF ∧
    headerLen (headerBytes n) = n ∧ groupOfWord (BitVec.ofNat 32 n) = headerBytes n) ∧
  (∀ gr : Group,
    headerLen gr = gr.b0.toNat + (gr.b1.toNat <<< 8) + (gr.b2.toNat <<< 16) ∧
    headerLen gr ≤ 16777215 ∧ headerBytes (headerLen gr) = gr ∧ ∃ e, extendedSize (headerLen gr) = .ok e)

/-! ### ENCODE -/

/-- R72: ENCODE's two checks, in this order; when they pass the command succeeds. -/
def Obligations.EncodeChecksInOrder : Prop :=
  ∀ s : State,
    (16777216 ≤ s.srcLen.toNat → exec .encode s = .next { s with status := 3#32 }) ∧
    (s.srcLen.toNat < 16777216 → s.dstCap.toNat < usedLen s.srcLen.toNat →
      exec .encode s = .next { s with status := 2#32 }) ∧
    (s.srcLen.toNat < 16777216 → usedLen s.srcLen.toNat ≤ s.dstCap.toNat →
      ∃ t, exec .encode s = .next t ∧ t.status = 0#32)

/-- R73: the header group, for every successful ENCODE, the empty payload included. -/
def Obligations.EncodeWritesTheLengthHeader : Prop :=
  ∀ s : State, encodeFits s → ∃ t, exec .encode s = .next t ∧
    ∀ k < 24, t.readD k = (if s.srcLen.toNat.testBit k then 255#8 else 0#8) ∧
      t.readD k = expand3 ⟨BitVec.ofNat 8 s.srcLen.toNat, BitVec.ofNat 8 (s.srcLen.toNat >>> 8),
        BitVec.ofNat 8 (s.srcLen.toNat >>> 16)⟩ k

/-- R74: the leading full groups. -/
def Obligations.EncodeExpandsTheFullGroups : Prop :=
  ∀ (s : State) (full : Nat), encodeFits s → 1 ≤ s.srcLen.toNat →
    full = (s.srcLen.toNat - 1) - (s.srcLen.toNat - 1) % 3 →
      full % 3 = 0 ∧ s.srcLen.toNat ≤ full + 3 ∧ full ≤ s.srcLen.toNat - 1 ∧
      ∃ t, exec .encode s = .next t ∧
        ∀ j k, j < full / 3 → k < 24 →
          t.readD (24 + 24 * j + k) = expand3 ⟨s.readS (3 * j), s.readS (3 * j + 1), s.readS (3 * j + 2)⟩ k

/-- R75 (derived by the spec from R74): the last group, for each of the three remainders, with the pad draw in the rest. -/
def Obligations.EncodeCompletesTheLastGroup : Prop :=
  ∀ (pad : PadDraw) (s : State) (full : Nat), encodeFits s → 1 ≤ s.srcLen.toNat →
    full = (s.srcLen.toNat - 1) - (s.srcLen.toNat - 1) % 3 →
      24 + 8 * full + 24 = usedLen s.srcLen.toNat ∧
      (s.srcLen.toNat - full = 3 ↔ s.srcLen.toNat % 3 = 0) ∧
      ∃ t, encodeWith pad s = .next t ∧
        ((s.srcLen.toNat - full = 1 ∧
            ∀ k < 24, t.readD (24 + 8 * full + k) = expand3 ⟨s.readS full, pad.pad0, pad.pad1⟩ k) ∨
         (s.srcLen.toNat - full = 2 ∧
            ∀ k < 24, t.readD (24 + 8 * full + k) = expand3 ⟨s.readS full, s.readS (full + 1), pad.pad1⟩ k) ∨
         (s.srcLen.toNat - full = 3 ∧
            ∀ k < 24, t.readD (24 + 8 * full + k) =
              expand3 ⟨s.readS full, s.readS (full + 1), s.readS (full + 2)⟩ k))

/-- R77: the empty payload. Header group of zeros, no payload group, no pad byte used, then zero-fill. -/
def Obligations.EncodeOfTheEmptyPayloadWritesZeros : Prop :=
  ∀ s : State, s.srcLen = 0#32 → 24 ≤ s.dstCap.toNat →
    ∃ t, exec .encode s = .next t ∧ (∀ pad, encodeWith pad s = .next t) ∧ t.rlen = 24#32 ∧ t.status = 0#32 ∧
      (∀ a < s.dstCap.toNat, t.readD a = 0#8) ∧ (∀ a, s.dstCap.toNat ≤ a → t.readD a = s.readD a)

/-- R78: zero-fill from the used length to the capacity; every cell below the capacity has been written and none at or beyond
it. -/
def Obligations.EncodeZeroFillsToTheCapacity : Prop :=
  ∀ s : State, encodeFits s → ∃ t, exec .encode s = .next t ∧
    (∀ a, usedLen s.srcLen.toNat ≤ a → a < s.dstCap.toNat → t.readD a = 0#8) ∧
    (∀ a, a < s.dstCap.toNat → (t.memD.get? a).isSome = true) ∧
    (∀ a, s.dstCap.toNat ≤ a → t.memD.get? a = s.memD.get? a ∧ t.readD a = s.readD a)

/-- R79, the frame of ENCODE: `RLEN` is the used length, `STATUS` is 0, no register but `RLEN` and `STATUS` changes (`CMD` is
written by the step), no cell of `S` changes, and no cell of `D` at or beyond the capacity. `draws` is the model's own counter
of drawn pad bytes (log 3). -/
def Obligations.EncodeChangesOnlyItsResults : Prop :=
  ∀ s : State, encodeFits s → ∃ t, exec .encode s = .next t ∧
    t.rlen.toNat = usedLen s.srcLen.toNat ∧
    t = { s with memD := t.memD, draws := t.draws, rlen := t.rlen, status := 0#32 } ∧
    (∀ a, t.readS a = s.readS a) ∧
    (∀ a, s.dstCap.toNat ≤ a → t.readD a = s.readD a)

/-- R81 (derived by the spec from R80 and R63): the closed form of the output, for every pad draw. -/
def Obligations.EncodeOutputIsTheBitStream : Prop :=
  ∀ (pad : PadDraw) (s : State), encodeFits s → ∃ t, encodeWith pad s = .next t ∧
    (∀ a, a < usedLen s.srcLen.toNat → t.readD a = pix ((streamByte s pad (a / 8)).getLsbD (a % 8))) ∧
    (∀ a, usedLen s.srcLen.toNat ≤ a → a < s.dstCap.toNat → t.readD a = 0#8)

/-- The ENCODE of `exec` is `encodeWith` at the pair of free bytes numbered by the draw counter, and moves the counter past the
pair exactly when the command succeeds with an incomplete last group, so that no pair is used by two ENCODEs (R76: "chosen
afresh at every ENCODE"; the counter and the opaque bytes are the model's form of the draw, log 3). -/
def Obligations.EncodeTakesAFreshPadDraw : Prop :=
  ∀ s : State, exec .encode s = encodeWith ⟨Config.padByte s.draws, Config.padByte (s.draws + 1)⟩ s ∧
    ∃ t, exec .encode s = .next t ∧
      t.draws = s.draws + (if t.status = 0#32 ∧ s.srcLen.toNat % 3 ≠ 0 then 2 else 0)

/-- R96 (derived by the spec from R65, R76 and R78): every byte a successful ENCODE writes is 0 or 255, and so is every lane
EXPAND writes. -/
def Obligations.EncodedBytesAreZeroOr255 : Prop :=
  (∀ s : State, encodeFits s → ∃ t, exec .encode s = .next t ∧
    ∀ a, a < s.dstCap.toNat → t.readD a = 0#8 ∨ t.readD a = 255#8) ∧
  (∀ s : State, ∃ t, exec .expand s = .next t ∧ ∀ k < 24, t.channel k = 0#8 ∨ t.channel k = 255#8)

/-- R37, R76: of `S` only `S[0..n)` matters to ENCODE. Whatever the rest of `S` holds, the outcome is the same. -/
def Obligations.EncodeReadsOnlyThePayload : Prop :=
  ∀ (pad : PadDraw) (s : State) (m : Memory),
    (∀ a, a < s.srcLen.toNat → ({ s with memS := m } : State).readS a = s.readS a) →
      ∃ t, encodeWith pad s = .next t ∧ encodeWith pad { s with memS := m } = .next { t with memS := m }

/-- R76: two encodings of the same state under two pad draws differ at most in the pad cells, and there by bytes that are 0 or
255; `pad0` has no effect when the last group holds two payload bytes. -/
def Obligations.PadDrawReachesOnlyThePadCells : Prop :=
  (∀ (pad pad' : PadDraw) (s : State), encodeFits s →
    ∃ t t', encodeWith pad s = .next t ∧ encodeWith pad' s = .next t' ∧
      (∀ a, ¬ padCell s.srcLen.toNat a → t.readD a = t'.readD a) ∧
      (∀ a, padCell s.srcLen.toNat a → t.readD a = 0#8 ∨ t.readD a = 255#8)) ∧
  (∀ (x y z : Byte) (s : State), s.srcLen.toNat % 3 = 2 → encodeWith ⟨x, z⟩ s = encodeWith ⟨y, z⟩ s)

/-! ### DECODE -/

/-- R85: the header. The declared length is the little-endian number of the three contracted bytes, bit `k` of it is
`S[k][7]`, and it is below 2^24 whatever `S` holds. -/
def Obligations.DecodeReadsTheLengthHeader : Prop :=
  ∀ s : State,
    declaredLen s.readS = (contract24 s.readS).b0.toNat + ((contract24 s.readS).b1.toNat <<< 8) +
      ((contract24 s.readS).b2.toNat <<< 16) ∧
    declaredLen s.readS ≤ 16777215 ∧
    ∀ k < 24, (declaredLen s.readS).testBit k = (s.readS k).getLsbD 7

/-- R84, R86, R87: DECODE's checks, in this order; when they pass the command succeeds. Below 25 bytes it reads no byte of `S`: the
outcome is the same whatever `S` holds. -/
def Obligations.DecodeChecksInOrder : Prop :=
  ∀ (s : State) (len : Nat), declares s len →
    (s.srcLen.toNat < 25 → exec .decode s = .next { s with status := 1#32 } ∧
      ∀ m : Memory, exec .decode { s with memS := m } = .next { s with memS := m, status := 1#32 }) ∧
    extendedSize len = .ok (usedLen len) ∧
    (25 ≤ s.srcLen.toNat → s.srcLen.toNat < usedLen len → exec .decode s = .next { s with status := 1#32 }) ∧
    (25 ≤ s.srcLen.toNat → usedLen len ≤ s.srcLen.toNat → s.dstCap.toNat < len →
      exec .decode s = .next { s with status := 2#32 }) ∧
    (25 ≤ s.srcLen.toNat → usedLen len ≤ s.srcLen.toNat → len ≤ s.dstCap.toNat →
      ∃ t, exec .decode s = .next t ∧ t.status = 0#32 ∧ t.rlen.toNat = len)

/-- R88, R89, the result and the frame of DECODE: byte `i` of group `j` goes to `D[3j + i]` if its index is below the declared
length; nothing else of `D` is written, `RLEN` is the declared length, and no register but `RLEN` and `STATUS` changes. -/
def Obligations.DecodeWritesThePayloadAndNothingElse : Prop :=
  ∀ (s : State) (len : Nat), decodeFits s len → ∃ t, exec .decode s = .next t ∧
    t.rlen.toNat = len ∧
    t = { s with memD := t.memD, rlen := t.rlen, status := 0#32 } ∧
    (∀ j i, i < 3 → 3 * j + i < len →
      t.readD (3 * j + i) = (contract24 (fun k => s.readS (24 + 24 * j + k))).byteAt i) ∧
    (∀ a, len ≤ a → t.memD.get? a = s.memD.get? a ∧ t.readD a = s.readD a) ∧
    (∀ a, t.readS a = s.readS a) ∧
    24 + 24 * ((len + 2) / 3) ≤ s.srcLen.toNat

/-- R91 (derived by the spec from R90 and R66): the closed form of the decoded payload. -/
def Obligations.DecodedBitIsTheChannelMsb : Prop :=
  ∀ (s : State) (len : Nat), decodeFits s len → ∃ t, exec .decode s = .next t ∧
    ∀ j b, j < len → b < 8 → (t.readD j).getLsbD b = (s.readS (24 + 8 * j + b)).getLsbD 7

/-- R94 (derived by the spec from R91): the header is authoritative. Two machines whose `S` agree in bit 7 of every cell of
`S[0..24 + 8 len)`, whatever else they hold and however long their buffers are, decode alike. -/
def Obligations.DecodeDependsOnlyOnTheDeclaredBits : Prop :=
  ∀ (s s' : State) (len : Nat), declares s len →
    (∀ a, a < 24 + 8 * len → (s.readS a).getLsbD 7 = (s'.readS a).getLsbD 7) →
    max 25 (usedLen len) ≤ s.srcLen.toNat → max 25 (usedLen len) ≤ s'.srcLen.toNat → s.dstCap = s'.dstCap →
      ∃ t t', exec .decode s = .next t ∧ exec .decode s' = .next t' ∧ t.status = t'.status ∧
        (t.status = 0#32 → t.rlen = t'.rlen ∧ ∀ j, j < len → t.readD j = t'.readD j)

/-! ### ENCODE and DECODE together -/

/-- R95 (derived by the spec; `90_conflicts.md` C1): the round trip. For every pad draw and every capacity, decoding a copy of
the encoded buffer gives the payload back when the buffer has at least 25 bytes, and fails with `InputTooSmall` when it has 24,
which only the empty payload allows. -/
def Obligations.EncodeThenDecodeRoundTrip : Prop :=
  ∀ (pad : PadDraw) (s : State), encodeFits s →
    ∃ t, encodeWith pad s = .next t ∧ t.status = 0#32 ∧
      (1 ≤ s.srcLen.toNat → 48 ≤ s.dstCap.toNat) ∧
      ∀ u : State, u.srcLen = s.dstCap → (∀ a, a < s.dstCap.toNat → u.readS a = t.readD a) →
        s.srcLen.toNat ≤ u.dstCap.toNat →
          (25 ≤ s.dstCap.toNat → ∃ v, exec .decode u = .next v ∧ v.status = 0#32 ∧ v.rlen = s.srcLen ∧
            ∀ j, j < s.srcLen.toNat → v.readD j = s.readS j) ∧
          (s.dstCap.toNat < 25 → exec .decode u = .next { u with status := 1#32 })

/-- R97 (derived by the spec from R91 and R68): a perturbed copy of an encoded buffer decodes like the buffer, as long as every
used channel byte stays on its side of 127/128. -/
def Obligations.DecodeToleratesPerturbedChannels : Prop :=
  ∀ (pad : PadDraw) (s : State), encodeFits s →
    ∃ t, encodeWith pad s = .next t ∧
      ∀ u u' : State, u.srcLen = s.dstCap → u'.srcLen = s.dstCap → u.dstCap = u'.dstCap →
        (∀ a, a < s.dstCap.toNat → u.readS a = t.readD a) →
        (∀ a, a < usedLen s.srcLen.toNat →
          (t.readD a = 255#8 → 128 ≤ (u'.readS a).toNat) ∧ (t.readD a = 0#8 → (u'.readS a).toNat ≤ 127)) →
          ∃ v v', exec .decode u = .next v ∧ exec .decode u' = .next v' ∧ v.status = v'.status ∧
            (v.status = 0#32 → v.rlen = v'.rlen ∧ ∀ j, j < s.srcLen.toNat → v.readD j = v'.readD j)

/-- R124 (derived by the spec from R58, R77 and R84): IMGSIZE of the empty payload gives a 24-byte buffer, which DECODE rejects
with `InputTooSmall` whatever it holds, exactly for row widths of 1, 2, 4 and 8 pixels, and at least 27 bytes for every other. The rounding `ceil` is the spec's own (D17,
log 6). -/
def Obligations.EmptyPayloadRowWidthHazard : Prop :=
  ∀ s : State, s.srcLen = 0#32 → 1 ≤ s.rowPix.toNat → s.rowPix.toNat ≤ 16777215 →
    ∃ t, exec .imgsize s = .next t ∧
      (t.rlen.toNat = 24 ↔ s.rowPix.toNat = 1 ∨ s.rowPix.toNat = 2 ∨ s.rowPix.toNat = 4 ∨ s.rowPix.toNat = 8) ∧
      (t.rlen.toNat ≠ 24 → 27 ≤ t.rlen.toNat) ∧
      ∀ u : State, u.srcLen = t.rlen → t.rlen.toNat = 24 → exec .decode u = .next { u with status := 1#32 }

/-! ### Errors -/

/-- R106: after a command that fails, `CMD` holds the word, `STATUS` the code of the kind, and everything else, registers and
cells, is exactly what it was. That every command word is answered rests on both spaces being backed in full (log 7): with
smaller memories R42 would refuse some. -/
def Obligations.FailedCommandChangesOnlyCmdAndStatus : Prop :=
  (∀ (k : ErrorKind) (s : State), s.raise k = .next { s with status := statusWord k.code }) ∧
  (∀ (s : State) (w : Word), ∃ t, issueCommand w s = .next t ∧
    (t.status ≠ 0#32 → ∃ k : ErrorKind, t = { s with cmd := w, status := statusWord k.code }))

/-- R101, R105: which kind each command raises, exactly when, and in which order (the numbers are R100's; 3 is the spec's own,
D10, log 5). -/
def Obligations.EachCommandRaisesItsKindsInOrder : Prop :=
  ∀ (i : Instr) (s : State) (len : Nat), declares s len →
    ∃ t, exec i s = .next t ∧
      (match raises i s len with
       | none => t.status = 0#32
       | some k => t = { s with status := kindNumber k })

/-- R14, R103, R104: after every command, legal or illegal, `STATUS` is 0, 1, 2, 3 or 254, so never 4, 127 or 128 (the number 3 is
the spec's own, D10, log 5; the host's moves stand in a queue, log 1). -/
def Obligations.StatusHoldsOnlyLegalCodes : Prop :=
  (∀ (i : Instr) (s t : State), exec i s = .next t →
    t.status = 0#32 ∨ t.status = 1#32 ∨ t.status = 2#32 ∨ t.status = 3#32 ∨ t.status = 254#32) ∧
  (∀ (s t : State) (rest : List HostMove) (w : Word), s.hostMoves = commandMove w :: rest → step s = .next t →
    (t.status = 0#32 ∨ t.status = 1#32 ∨ t.status = 2#32 ∨ t.status = 3#32 ∨ t.status = 254#32) ∧
    t.status ≠ 4#32 ∧ t.status ≠ 127#32 ∧ t.status ≠ 128#32 ∧ t.status.extractLsb' 8 24 = 0#24 ∧ t.cmd = w)

/-- R117 (derived by the spec from R106 and R51), R23: the engine answers every host move that is part of the interface with a
next state; a move that is not is refused and has no effect. The host's moves stand in a queue (log 1), and that every command
write is answered rests on both spaces being backed in full (log 7): R117 itself names the refusal of R42. -/
def Obligations.EveryInterfaceMoveIsAnswered : Prop :=
  (∀ s : State, (∀ mv rest, s.hostMoves = mv :: rest → mv.wellFormed = true) → ∃ t, step s = .next t) ∧
  (∀ (s : State) (mv : HostMove) (rest : List HostMove), s.hostMoves = mv :: rest → mv.wellFormed = false →
    ∃ why, step s = .refused (.registerAccess why))

/-- R24 (derived by the spec), each command's row of the table: what no command writes, what only some do, the cells of `D` that
ENCODE (at or beyond the capacity) and DECODE (at or beyond the declared length) leave, and the error column: a command that
fails writes `STATUS` alone. `CMD` is written by the step, before `exec` (log 10). -/
def Obligations.CommandsWriteOnlyTheirTableRow : Prop :=
  ∀ (i : Instr) (s : State), ∃ t, exec i s = .next t ∧
    t.cmd = s.cmd ∧ t.srcLen = s.srcLen ∧ t.dstCap = s.dstCap ∧ t.rowPix = s.rowPix ∧ t.memS = s.memS ∧
    t.resets = s.resets ∧ t.hostMoves = s.hostMoves ∧ t.hostReplies = s.hostReplies ∧
    (i = .expand ∨ i = .contract → t.rlen = s.rlen) ∧
    (i ≠ .imgsize → t.width = s.width ∧ t.height = s.height) ∧
    (i ≠ .contract → t.g = s.g) ∧
    (i ≠ .expand → t.p0 = s.p0 ∧ t.p1 = s.p1 ∧ t.p2 = s.p2 ∧ t.p3 = s.p3 ∧ t.p4 = s.p4 ∧ t.p5 = s.p5) ∧
    (i ≠ .encode → i ≠ .decode → t.memD = s.memD ∧ ∀ a, t.readD a = s.readD a) ∧
    (i = .encode → ∀ a, s.dstCap.toNat ≤ a → t.memD.get? a = s.memD.get? a ∧ t.readD a = s.readD a) ∧
    (i = .decode → ∀ len, declares s len → ∀ a, len ≤ a → t.memD.get? a = s.memD.get? a ∧ t.readD a = s.readD a) ∧
    (t.status ≠ 0#32 → t = { s with status := t.status }) ∧
    (i ≠ .encode → t.draws = s.draws)

/-- R25: no command's behaviour depends on the outcome of an earlier command: with other values in `CMD`, `STATUS`, `RLEN`,
`WIDTH` and `HEIGHT` it leaves the same `STATUS`, group registers and memories, and on success the same results. -/
def Obligations.CommandsIgnoreEarlierOutcomes : Prop :=
  ∀ (i : Instr) (s : State) (c x r w h : Word), ∃ t u,
    exec i s = .next t ∧
    exec i { s with cmd := c, status := x, rlen := r, width := w, height := h } = .next u ∧
    u.status = t.status ∧ u.g = t.g ∧ (∀ k < 24, u.channel k = t.channel k) ∧ u.memD = t.memD ∧ u.memS = t.memS ∧
    (t.status = 0#32 → i ≠ .expand → i ≠ .contract → u.rlen = t.rlen) ∧
    (t.status = 0#32 → i = .imgsize → u.width = t.width ∧ u.height = t.height)

/-- R21, R71, R83: ENCODE and DECODE neither read nor write `G`, `P0`..`P5`, `ROWPIX`, `WIDTH`, `HEIGHT`: with those registers
replaced the command does the same. -/
def Obligations.BufferCommandsIgnoreTheGroupRegisters : Prop :=
  ∀ (i : Instr) (s : State) (r w h x : Word) (f : Nat → Word), i = .encode ∨ i = .decode →
    ∃ t, exec i s = .next t ∧
      exec i { s with
          rowPix := r, width := w, height := h, g := x
          p0 := f 0, p1 := f 1, p2 := f 2, p3 := f 3, p4 := f 4, p5 := f 5 } =
        .next { t with
          rowPix := r, width := w, height := h, g := x
          p0 := f 0, p1 := f 1, p2 := f 2, p3 := f 3, p4 := f 4, p5 := f 5 }

/-- R36: re-issuing a command with unchanged operands reproduces the same state. An ENCODE with an incomplete last group is left
out, as R36 leaves it out: it may draw different pad bytes. The first premise is the canonical form of the memories, which every step keeps
(`StepKeepsTheInvariant`). -/
def Obligations.ReissuedCommandReproducesTheState : Prop :=
  ∀ (i : Instr) (s : State), s.memoriesCanonical → (i = .encode → s.srcLen.toNat % 3 = 0) →
    ∃ t, exec i s = .next t ∧ exec i t = .next t

/-! ### The host -/

/-- R12: the register map. Register index = offset / 4. -/
def Obligations.RegisterWindowMap : Prop :=
  accessSlot .word 0x00 = .ok .cmd ∧ accessSlot .word 0x04 = .ok .status ∧ accessSlot .word 0x08 = .ok .srcLen ∧
  accessSlot .word 0x0C = .ok .dstCap ∧ accessSlot .word 0x10 = .ok .rowPix ∧ accessSlot .word 0x14 = .ok .rlen ∧
  accessSlot .word 0x18 = .ok .width ∧ accessSlot .word 0x1C = .ok .height ∧ accessSlot .word 0x20 = .ok .g ∧
  accessSlot .word 0x24 = .ok .p0 ∧ accessSlot .word 0x28 = .ok .p1 ∧ accessSlot .word 0x2C = .ok .p2 ∧
  accessSlot .word 0x30 = .ok .p3 ∧ accessSlot .word 0x34 = .ok .p4 ∧ accessSlot .word 0x38 = .ok .p5 ∧
  accessSlot .word 0x3C = .ok .reserved

/-- R12, R22, R23: a host write to a slot other than `CMD` stores the value in a read/write register and is ignored by a
read-only one and by the reserved slot, which reads 0; nothing else changes and no command starts. -/
def Obligations.HostRegisterWrite : Prop :=
  ∀ (s : State) (rest : List HostMove) (offset : Nat) (v : Word) (sl : Slot),
    s.hostMoves = .writeReg .word offset v :: rest → accessSlot .word offset = .ok sl → sl ≠ .cmd →
      ∃ t, step s = .next t ∧
        t.readSlot sl = (if storesHostWrite sl then v else s.readSlot sl) ∧
        (∀ sl', sl' ≠ sl → t.readSlot sl' = s.readSlot sl') ∧ t.readSlot .reserved = 0#32 ∧
        t.memS = s.memS ∧ t.memD = s.memD ∧ t.draws = s.draws ∧ t.resets = s.resets ∧ t.hostMoves = rest ∧
        t.hostReplies = s.hostReplies

/-- R13, R23: a host register read returns the register and has no side effect; in particular a read of `CMD` starts no command.
(Where the value goes is the model's choice, log 2.) -/
def Obligations.HostRegisterRead : Prop :=
  ∀ (s : State) (rest : List HostMove) (offset : Nat) (sl : Slot),
    s.hostMoves = .readReg .word offset :: rest → accessSlot .word offset = .ok sl →
      step s = .next { s with hostMoves := rest, hostReplies := .reg sl (s.readSlot sl) :: s.hostReplies }

/-- R23, R22: host register accesses that are not 32 bits wide, not at a multiple of 4, or outside the 64-byte window are refused:
they have no meaning. (Which problem is named when several hold is the model's choice, log 8.) -/
def Obligations.AccessOutsideTheInterfaceIsRefused : Prop :=
  ∀ (s : State) (rest : List HostMove) (width : AccessWidth) (offset : Nat) (v : Word),
    (width ≠ .word ∨ offset % 4 ≠ 0 ∨ 64 ≤ offset) →
      (s.hostMoves = .writeReg width offset v :: rest → ∃ why, step s = .refused (.registerAccess why)) ∧
      (s.hostMoves = .readReg width offset :: rest → ∃ why, step s = .refused (.registerAccess why))

/-- R26, R31, R39: a host byte written to a space is the byte read back from it; every other cell of it, the other space and all
registers are unchanged. -/
def Obligations.HostByteWriteThenRead : Prop :=
  ∀ (s : State) (rest : List HostMove) (a : Word) (v : Byte),
    (s.hostMoves = .writeByte .src a v :: rest →
      ∃ t, step s = .next t ∧ t.readS a.toNat = v ∧ (∀ x, x ≠ a.toNat → t.readS x = s.readS x) ∧
        t = { s with hostMoves := rest, memS := t.memS }) ∧
    (s.hostMoves = .writeByte .dst a v :: rest →
      ∃ t, step s = .next t ∧ t.readD a.toNat = v ∧ (∀ x, x ≠ a.toNat → t.readD x = s.readD x) ∧
        t = { s with hostMoves := rest, memD := t.memD }) ∧
    (s.hostMoves = .readByte .src a :: rest →
      step s = .next { s with hostMoves := rest, hostReplies := .byte .src a (s.readS a.toNat) :: s.hostReplies }) ∧
    (s.hostMoves = .readByte .dst a :: rest →
      step s = .next { s with hostMoves := rest, hostReplies := .byte .dst a (s.readD a.toNat) :: s.hostReplies })

/-- R28: after reset every register holds 0, and no cell of `S` or `D` counts as written: its contents are unspecified. -/
def Obligations.ResetLeavesEveryRegisterZero : Prop :=
  (∀ sl : Slot, State.reset.readSlot sl = 0#32) ∧
  (∀ a, State.reset.memS.get? a = none ∧ State.reset.memD.get? a = none)

/-- R118: the reset event at any time. Every register 0, and every cell of both spaces unspecified again: it reads as a free
value numbered by a reset count that no earlier state of the run had (that form is the model's choice, logs 1 and 4). -/
def Obligations.ResetMoveClearsTheRegisters : Prop :=
  ∀ (s : State) (rest : List HostMove), s.hostMoves = .reset :: rest →
    ∃ t, step s = .next t ∧ (∀ sl : Slot, t.readSlot sl = 0#32) ∧
      (∀ a, t.readS a = Config.unwrittenS (s.resets + 1) a ∧ t.readD a = Config.unwrittenD (s.resets + 1) a) ∧
      t.resets = s.resets + 1 ∧ t.hostMoves = rest

/-! ### The invariant of the machine -/

/-- The invariant (R14, R18, R19, R26, R57) holds after reset. -/
def Obligations.ResetMeetsTheInvariant : Prop := State.reset.Inv

/-- From every state that meets the invariant, a step gives a state that meets it: `STATUS` holds a legal code (R14), the result
registers stay within the bounds of R18, R19 and R57, and both memories keep their canonical form inside the 2^32 cells (R26). -/
def Obligations.StepKeepsTheInvariant : Prop :=
  ∀ s t : State, s.Inv → step s = .next t → t.Inv
end

