-- ==== Sys2Proof/Laws/State.lean ====
section
/-!
SUPPORT. One lemma per field of `State` and per named update, true by rfl, so that no later proof unfolds a record update; and
what the two register-window operations and the two ends of a command do.
-/

namespace Sys2Proof.Machine.State

/-! ### `setCmd` -/

@[simp] theorem setCmd_cmd (w : Word) (s : State) : (s.setCmd w).cmd = w := rfl
@[simp] theorem setCmd_status (w : Word) (s : State) : (s.setCmd w).status = s.status := rfl
@[simp] theorem setCmd_srcLen (w : Word) (s : State) : (s.setCmd w).srcLen = s.srcLen := rfl
@[simp] theorem setCmd_dstCap (w : Word) (s : State) : (s.setCmd w).dstCap = s.dstCap := rfl
@[simp] theorem setCmd_rowPix (w : Word) (s : State) : (s.setCmd w).rowPix = s.rowPix := rfl
@[simp] theorem setCmd_rlen (w : Word) (s : State) : (s.setCmd w).rlen = s.rlen := rfl
@[simp] theorem setCmd_width (w : Word) (s : State) : (s.setCmd w).width = s.width := rfl
@[simp] theorem setCmd_height (w : Word) (s : State) : (s.setCmd w).height = s.height := rfl
@[simp] theorem setCmd_g (w : Word) (s : State) : (s.setCmd w).g = s.g := rfl
@[simp] theorem setCmd_p0 (w : Word) (s : State) : (s.setCmd w).p0 = s.p0 := rfl
@[simp] theorem setCmd_p1 (w : Word) (s : State) : (s.setCmd w).p1 = s.p1 := rfl
@[simp] theorem setCmd_p2 (w : Word) (s : State) : (s.setCmd w).p2 = s.p2 := rfl
@[simp] theorem setCmd_p3 (w : Word) (s : State) : (s.setCmd w).p3 = s.p3 := rfl
@[simp] theorem setCmd_p4 (w : Word) (s : State) : (s.setCmd w).p4 = s.p4 := rfl
@[simp] theorem setCmd_p5 (w : Word) (s : State) : (s.setCmd w).p5 = s.p5 := rfl
@[simp] theorem setCmd_memS (w : Word) (s : State) : (s.setCmd w).memS = s.memS := rfl
@[simp] theorem setCmd_memD (w : Word) (s : State) : (s.setCmd w).memD = s.memD := rfl
@[simp] theorem setCmd_draws (w : Word) (s : State) : (s.setCmd w).draws = s.draws := rfl
@[simp] theorem setCmd_resets (w : Word) (s : State) : (s.setCmd w).resets = s.resets := rfl
@[simp] theorem setCmd_hostMoves (w : Word) (s : State) : (s.setCmd w).hostMoves = s.hostMoves := rfl
@[simp] theorem setCmd_hostReplies (w : Word) (s : State) : (s.setCmd w).hostReplies = s.hostReplies := rfl

/-! ### `setStatus` -/

@[simp] theorem setStatus_cmd (w : Word) (s : State) : (s.setStatus w).cmd = s.cmd := rfl
@[simp] theorem setStatus_status (w : Word) (s : State) : (s.setStatus w).status = w := rfl
@[simp] theorem setStatus_srcLen (w : Word) (s : State) : (s.setStatus w).srcLen = s.srcLen := rfl
@[simp] theorem setStatus_dstCap (w : Word) (s : State) : (s.setStatus w).dstCap = s.dstCap := rfl
@[simp] theorem setStatus_rowPix (w : Word) (s : State) : (s.setStatus w).rowPix = s.rowPix := rfl
@[simp] theorem setStatus_rlen (w : Word) (s : State) : (s.setStatus w).rlen = s.rlen := rfl
@[simp] theorem setStatus_width (w : Word) (s : State) : (s.setStatus w).width = s.width := rfl
@[simp] theorem setStatus_height (w : Word) (s : State) : (s.setStatus w).height = s.height := rfl
@[simp] theorem setStatus_g (w : Word) (s : State) : (s.setStatus w).g = s.g := rfl
@[simp] theorem setStatus_p0 (w : Word) (s : State) : (s.setStatus w).p0 = s.p0 := rfl
@[simp] theorem setStatus_p1 (w : Word) (s : State) : (s.setStatus w).p1 = s.p1 := rfl
@[simp] theorem setStatus_p2 (w : Word) (s : State) : (s.setStatus w).p2 = s.p2 := rfl
@[simp] theorem setStatus_p3 (w : Word) (s : State) : (s.setStatus w).p3 = s.p3 := rfl
@[simp] theorem setStatus_p4 (w : Word) (s : State) : (s.setStatus w).p4 = s.p4 := rfl
@[simp] theorem setStatus_p5 (w : Word) (s : State) : (s.setStatus w).p5 = s.p5 := rfl
@[simp] theorem setStatus_memS (w : Word) (s : State) : (s.setStatus w).memS = s.memS := rfl
@[simp] theorem setStatus_memD (w : Word) (s : State) : (s.setStatus w).memD = s.memD := rfl
@[simp] theorem setStatus_draws (w : Word) (s : State) : (s.setStatus w).draws = s.draws := rfl
@[simp] theorem setStatus_resets (w : Word) (s : State) : (s.setStatus w).resets = s.resets := rfl
@[simp] theorem setStatus_hostMoves (w : Word) (s : State) : (s.setStatus w).hostMoves = s.hostMoves := rfl
@[simp] theorem setStatus_hostReplies (w : Word) (s : State) : (s.setStatus w).hostReplies = s.hostReplies := rfl

/-! ### `setRlen` -/

@[simp] theorem setRlen_cmd (w : Word) (s : State) : (s.setRlen w).cmd = s.cmd := rfl
@[simp] theorem setRlen_status (w : Word) (s : State) : (s.setRlen w).status = s.status := rfl
@[simp] theorem setRlen_srcLen (w : Word) (s : State) : (s.setRlen w).srcLen = s.srcLen := rfl
@[simp] theorem setRlen_dstCap (w : Word) (s : State) : (s.setRlen w).dstCap = s.dstCap := rfl
@[simp] theorem setRlen_rowPix (w : Word) (s : State) : (s.setRlen w).rowPix = s.rowPix := rfl
@[simp] theorem setRlen_rlen (w : Word) (s : State) : (s.setRlen w).rlen = w := rfl
@[simp] theorem setRlen_width (w : Word) (s : State) : (s.setRlen w).width = s.width := rfl
@[simp] theorem setRlen_height (w : Word) (s : State) : (s.setRlen w).height = s.height := rfl
@[simp] theorem setRlen_g (w : Word) (s : State) : (s.setRlen w).g = s.g := rfl
@[simp] theorem setRlen_p0 (w : Word) (s : State) : (s.setRlen w).p0 = s.p0 := rfl
@[simp] theorem setRlen_p1 (w : Word) (s : State) : (s.setRlen w).p1 = s.p1 := rfl
@[simp] theorem setRlen_p2 (w : Word) (s : State) : (s.setRlen w).p2 = s.p2 := rfl
@[simp] theorem setRlen_p3 (w : Word) (s : State) : (s.setRlen w).p3 = s.p3 := rfl
@[simp] theorem setRlen_p4 (w : Word) (s : State) : (s.setRlen w).p4 = s.p4 := rfl
@[simp] theorem setRlen_p5 (w : Word) (s : State) : (s.setRlen w).p5 = s.p5 := rfl
@[simp] theorem setRlen_memS (w : Word) (s : State) : (s.setRlen w).memS = s.memS := rfl
@[simp] theorem setRlen_memD (w : Word) (s : State) : (s.setRlen w).memD = s.memD := rfl
@[simp] theorem setRlen_draws (w : Word) (s : State) : (s.setRlen w).draws = s.draws := rfl
@[simp] theorem setRlen_resets (w : Word) (s : State) : (s.setRlen w).resets = s.resets := rfl
@[simp] theorem setRlen_hostMoves (w : Word) (s : State) : (s.setRlen w).hostMoves = s.hostMoves := rfl
@[simp] theorem setRlen_hostReplies (w : Word) (s : State) : (s.setRlen w).hostReplies = s.hostReplies := rfl

/-! ### `setImage` -/

@[simp] theorem setImage_cmd (x y : Word) (s : State) : (s.setImage x y).cmd = s.cmd := rfl
@[simp] theorem setImage_status (x y : Word) (s : State) : (s.setImage x y).status = s.status := rfl
@[simp] theorem setImage_srcLen (x y : Word) (s : State) : (s.setImage x y).srcLen = s.srcLen := rfl
@[simp] theorem setImage_dstCap (x y : Word) (s : State) : (s.setImage x y).dstCap = s.dstCap := rfl
@[simp] theorem setImage_rowPix (x y : Word) (s : State) : (s.setImage x y).rowPix = s.rowPix := rfl
@[simp] theorem setImage_rlen (x y : Word) (s : State) : (s.setImage x y).rlen = s.rlen := rfl
@[simp] theorem setImage_width (x y : Word) (s : State) : (s.setImage x y).width = x := rfl
@[simp] theorem setImage_height (x y : Word) (s : State) : (s.setImage x y).height = y := rfl
@[simp] theorem setImage_g (x y : Word) (s : State) : (s.setImage x y).g = s.g := rfl
@[simp] theorem setImage_p0 (x y : Word) (s : State) : (s.setImage x y).p0 = s.p0 := rfl
@[simp] theorem setImage_p1 (x y : Word) (s : State) : (s.setImage x y).p1 = s.p1 := rfl
@[simp] theorem setImage_p2 (x y : Word) (s : State) : (s.setImage x y).p2 = s.p2 := rfl
@[simp] theorem setImage_p3 (x y : Word) (s : State) : (s.setImage x y).p3 = s.p3 := rfl
@[simp] theorem setImage_p4 (x y : Word) (s : State) : (s.setImage x y).p4 = s.p4 := rfl
@[simp] theorem setImage_p5 (x y : Word) (s : State) : (s.setImage x y).p5 = s.p5 := rfl
@[simp] theorem setImage_memS (x y : Word) (s : State) : (s.setImage x y).memS = s.memS := rfl
@[simp] theorem setImage_memD (x y : Word) (s : State) : (s.setImage x y).memD = s.memD := rfl
@[simp] theorem setImage_draws (x y : Word) (s : State) : (s.setImage x y).draws = s.draws := rfl
@[simp] theorem setImage_resets (x y : Word) (s : State) : (s.setImage x y).resets = s.resets := rfl
@[simp] theorem setImage_hostMoves (x y : Word) (s : State) : (s.setImage x y).hostMoves = s.hostMoves := rfl
@[simp] theorem setImage_hostReplies (x y : Word) (s : State) : (s.setImage x y).hostReplies = s.hostReplies := rfl

/-! ### `setG` -/

@[simp] theorem setG_cmd (w : Word) (s : State) : (s.setG w).cmd = s.cmd := rfl
@[simp] theorem setG_status (w : Word) (s : State) : (s.setG w).status = s.status := rfl
@[simp] theorem setG_srcLen (w : Word) (s : State) : (s.setG w).srcLen = s.srcLen := rfl
@[simp] theorem setG_dstCap (w : Word) (s : State) : (s.setG w).dstCap = s.dstCap := rfl
@[simp] theorem setG_rowPix (w : Word) (s : State) : (s.setG w).rowPix = s.rowPix := rfl
@[simp] theorem setG_rlen (w : Word) (s : State) : (s.setG w).rlen = s.rlen := rfl
@[simp] theorem setG_width (w : Word) (s : State) : (s.setG w).width = s.width := rfl
@[simp] theorem setG_height (w : Word) (s : State) : (s.setG w).height = s.height := rfl
@[simp] theorem setG_g (w : Word) (s : State) : (s.setG w).g = w := rfl
@[simp] theorem setG_p0 (w : Word) (s : State) : (s.setG w).p0 = s.p0 := rfl
@[simp] theorem setG_p1 (w : Word) (s : State) : (s.setG w).p1 = s.p1 := rfl
@[simp] theorem setG_p2 (w : Word) (s : State) : (s.setG w).p2 = s.p2 := rfl
@[simp] theorem setG_p3 (w : Word) (s : State) : (s.setG w).p3 = s.p3 := rfl
@[simp] theorem setG_p4 (w : Word) (s : State) : (s.setG w).p4 = s.p4 := rfl
@[simp] theorem setG_p5 (w : Word) (s : State) : (s.setG w).p5 = s.p5 := rfl
@[simp] theorem setG_memS (w : Word) (s : State) : (s.setG w).memS = s.memS := rfl
@[simp] theorem setG_memD (w : Word) (s : State) : (s.setG w).memD = s.memD := rfl
@[simp] theorem setG_draws (w : Word) (s : State) : (s.setG w).draws = s.draws := rfl
@[simp] theorem setG_resets (w : Word) (s : State) : (s.setG w).resets = s.resets := rfl
@[simp] theorem setG_hostMoves (w : Word) (s : State) : (s.setG w).hostMoves = s.hostMoves := rfl
@[simp] theorem setG_hostReplies (w : Word) (s : State) : (s.setG w).hostReplies = s.hostReplies := rfl

/-! ### `setPixels` -/

@[simp] theorem setPixels_cmd (f : Nat → Word) (s : State) : (s.setPixels f).cmd = s.cmd := rfl
@[simp] theorem setPixels_status (f : Nat → Word) (s : State) : (s.setPixels f).status = s.status := rfl
@[simp] theorem setPixels_srcLen (f : Nat → Word) (s : State) : (s.setPixels f).srcLen = s.srcLen := rfl
@[simp] theorem setPixels_dstCap (f : Nat → Word) (s : State) : (s.setPixels f).dstCap = s.dstCap := rfl
@[simp] theorem setPixels_rowPix (f : Nat → Word) (s : State) : (s.setPixels f).rowPix = s.rowPix := rfl
@[simp] theorem setPixels_rlen (f : Nat → Word) (s : State) : (s.setPixels f).rlen = s.rlen := rfl
@[simp] theorem setPixels_width (f : Nat → Word) (s : State) : (s.setPixels f).width = s.width := rfl
@[simp] theorem setPixels_height (f : Nat → Word) (s : State) : (s.setPixels f).height = s.height := rfl
@[simp] theorem setPixels_g (f : Nat → Word) (s : State) : (s.setPixels f).g = s.g := rfl
@[simp] theorem setPixels_p0 (f : Nat → Word) (s : State) : (s.setPixels f).p0 = f 0 := rfl
@[simp] theorem setPixels_p1 (f : Nat → Word) (s : State) : (s.setPixels f).p1 = f 1 := rfl
@[simp] theorem setPixels_p2 (f : Nat → Word) (s : State) : (s.setPixels f).p2 = f 2 := rfl
@[simp] theorem setPixels_p3 (f : Nat → Word) (s : State) : (s.setPixels f).p3 = f 3 := rfl
@[simp] theorem setPixels_p4 (f : Nat → Word) (s : State) : (s.setPixels f).p4 = f 4 := rfl
@[simp] theorem setPixels_p5 (f : Nat → Word) (s : State) : (s.setPixels f).p5 = f 5 := rfl
@[simp] theorem setPixels_memS (f : Nat → Word) (s : State) : (s.setPixels f).memS = s.memS := rfl
@[simp] theorem setPixels_memD (f : Nat → Word) (s : State) : (s.setPixels f).memD = s.memD := rfl
@[simp] theorem setPixels_draws (f : Nat → Word) (s : State) : (s.setPixels f).draws = s.draws := rfl
@[simp] theorem setPixels_resets (f : Nat → Word) (s : State) : (s.setPixels f).resets = s.resets := rfl
@[simp] theorem setPixels_hostMoves (f : Nat → Word) (s : State) : (s.setPixels f).hostMoves = s.hostMoves := rfl
@[simp] theorem setPixels_hostReplies (f : Nat → Word) (s : State) : (s.setPixels f).hostReplies = s.hostReplies := rfl

/-! ### `setMemS` -/

@[simp] theorem setMemS_cmd (m : Memory) (s : State) : (s.setMemS m).cmd = s.cmd := rfl
@[simp] theorem setMemS_status (m : Memory) (s : State) : (s.setMemS m).status = s.status := rfl
@[simp] theorem setMemS_srcLen (m : Memory) (s : State) : (s.setMemS m).srcLen = s.srcLen := rfl
@[simp] theorem setMemS_dstCap (m : Memory) (s : State) : (s.setMemS m).dstCap = s.dstCap := rfl
@[simp] theorem setMemS_rowPix (m : Memory) (s : State) : (s.setMemS m).rowPix = s.rowPix := rfl
@[simp] theorem setMemS_rlen (m : Memory) (s : State) : (s.setMemS m).rlen = s.rlen := rfl
@[simp] theorem setMemS_width (m : Memory) (s : State) : (s.setMemS m).width = s.width := rfl
@[simp] theorem setMemS_height (m : Memory) (s : State) : (s.setMemS m).height = s.height := rfl
@[simp] theorem setMemS_g (m : Memory) (s : State) : (s.setMemS m).g = s.g := rfl
@[simp] theorem setMemS_p0 (m : Memory) (s : State) : (s.setMemS m).p0 = s.p0 := rfl
@[simp] theorem setMemS_p1 (m : Memory) (s : State) : (s.setMemS m).p1 = s.p1 := rfl
@[simp] theorem setMemS_p2 (m : Memory) (s : State) : (s.setMemS m).p2 = s.p2 := rfl
@[simp] theorem setMemS_p3 (m : Memory) (s : State) : (s.setMemS m).p3 = s.p3 := rfl
@[simp] theorem setMemS_p4 (m : Memory) (s : State) : (s.setMemS m).p4 = s.p4 := rfl
@[simp] theorem setMemS_p5 (m : Memory) (s : State) : (s.setMemS m).p5 = s.p5 := rfl
@[simp] theorem setMemS_memS (m : Memory) (s : State) : (s.setMemS m).memS = m := rfl
@[simp] theorem setMemS_memD (m : Memory) (s : State) : (s.setMemS m).memD = s.memD := rfl
@[simp] theorem setMemS_draws (m : Memory) (s : State) : (s.setMemS m).draws = s.draws := rfl
@[simp] theorem setMemS_resets (m : Memory) (s : State) : (s.setMemS m).resets = s.resets := rfl
@[simp] theorem setMemS_hostMoves (m : Memory) (s : State) : (s.setMemS m).hostMoves = s.hostMoves := rfl
@[simp] theorem setMemS_hostReplies (m : Memory) (s : State) : (s.setMemS m).hostReplies = s.hostReplies := rfl

/-! ### `setMemD` -/

@[simp] theorem setMemD_cmd (m : Memory) (s : State) : (s.setMemD m).cmd = s.cmd := rfl
@[simp] theorem setMemD_status (m : Memory) (s : State) : (s.setMemD m).status = s.status := rfl
@[simp] theorem setMemD_srcLen (m : Memory) (s : State) : (s.setMemD m).srcLen = s.srcLen := rfl
@[simp] theorem setMemD_dstCap (m : Memory) (s : State) : (s.setMemD m).dstCap = s.dstCap := rfl
@[simp] theorem setMemD_rowPix (m : Memory) (s : State) : (s.setMemD m).rowPix = s.rowPix := rfl
@[simp] theorem setMemD_rlen (m : Memory) (s : State) : (s.setMemD m).rlen = s.rlen := rfl
@[simp] theorem setMemD_width (m : Memory) (s : State) : (s.setMemD m).width = s.width := rfl
@[simp] theorem setMemD_height (m : Memory) (s : State) : (s.setMemD m).height = s.height := rfl
@[simp] theorem setMemD_g (m : Memory) (s : State) : (s.setMemD m).g = s.g := rfl
@[simp] theorem setMemD_p0 (m : Memory) (s : State) : (s.setMemD m).p0 = s.p0 := rfl
@[simp] theorem setMemD_p1 (m : Memory) (s : State) : (s.setMemD m).p1 = s.p1 := rfl
@[simp] theorem setMemD_p2 (m : Memory) (s : State) : (s.setMemD m).p2 = s.p2 := rfl
@[simp] theorem setMemD_p3 (m : Memory) (s : State) : (s.setMemD m).p3 = s.p3 := rfl
@[simp] theorem setMemD_p4 (m : Memory) (s : State) : (s.setMemD m).p4 = s.p4 := rfl
@[simp] theorem setMemD_p5 (m : Memory) (s : State) : (s.setMemD m).p5 = s.p5 := rfl
@[simp] theorem setMemD_memS (m : Memory) (s : State) : (s.setMemD m).memS = s.memS := rfl
@[simp] theorem setMemD_memD (m : Memory) (s : State) : (s.setMemD m).memD = m := rfl
@[simp] theorem setMemD_draws (m : Memory) (s : State) : (s.setMemD m).draws = s.draws := rfl
@[simp] theorem setMemD_resets (m : Memory) (s : State) : (s.setMemD m).resets = s.resets := rfl
@[simp] theorem setMemD_hostMoves (m : Memory) (s : State) : (s.setMemD m).hostMoves = s.hostMoves := rfl
@[simp] theorem setMemD_hostReplies (m : Memory) (s : State) : (s.setMemD m).hostReplies = s.hostReplies := rfl

/-! ### `setDraws` -/

@[simp] theorem setDraws_cmd (k : Nat) (s : State) : (s.setDraws k).cmd = s.cmd := rfl
@[simp] theorem setDraws_status (k : Nat) (s : State) : (s.setDraws k).status = s.status := rfl
@[simp] theorem setDraws_srcLen (k : Nat) (s : State) : (s.setDraws k).srcLen = s.srcLen := rfl
@[simp] theorem setDraws_dstCap (k : Nat) (s : State) : (s.setDraws k).dstCap = s.dstCap := rfl
@[simp] theorem setDraws_rowPix (k : Nat) (s : State) : (s.setDraws k).rowPix = s.rowPix := rfl
@[simp] theorem setDraws_rlen (k : Nat) (s : State) : (s.setDraws k).rlen = s.rlen := rfl
@[simp] theorem setDraws_width (k : Nat) (s : State) : (s.setDraws k).width = s.width := rfl
@[simp] theorem setDraws_height (k : Nat) (s : State) : (s.setDraws k).height = s.height := rfl
@[simp] theorem setDraws_g (k : Nat) (s : State) : (s.setDraws k).g = s.g := rfl
@[simp] theorem setDraws_p0 (k : Nat) (s : State) : (s.setDraws k).p0 = s.p0 := rfl
@[simp] theorem setDraws_p1 (k : Nat) (s : State) : (s.setDraws k).p1 = s.p1 := rfl
@[simp] theorem setDraws_p2 (k : Nat) (s : State) : (s.setDraws k).p2 = s.p2 := rfl
@[simp] theorem setDraws_p3 (k : Nat) (s : State) : (s.setDraws k).p3 = s.p3 := rfl
@[simp] theorem setDraws_p4 (k : Nat) (s : State) : (s.setDraws k).p4 = s.p4 := rfl
@[simp] theorem setDraws_p5 (k : Nat) (s : State) : (s.setDraws k).p5 = s.p5 := rfl
@[simp] theorem setDraws_memS (k : Nat) (s : State) : (s.setDraws k).memS = s.memS := rfl
@[simp] theorem setDraws_memD (k : Nat) (s : State) : (s.setDraws k).memD = s.memD := rfl
@[simp] theorem setDraws_draws (k : Nat) (s : State) : (s.setDraws k).draws = k := rfl
@[simp] theorem setDraws_resets (k : Nat) (s : State) : (s.setDraws k).resets = s.resets := rfl
@[simp] theorem setDraws_hostMoves (k : Nat) (s : State) : (s.setDraws k).hostMoves = s.hostMoves := rfl
@[simp] theorem setDraws_hostReplies (k : Nat) (s : State) : (s.setDraws k).hostReplies = s.hostReplies := rfl

/-! ### `setHostMoves` -/

@[simp] theorem setHostMoves_cmd (l : List HostMove) (s : State) : (s.setHostMoves l).cmd = s.cmd := rfl
@[simp] theorem setHostMoves_status (l : List HostMove) (s : State) : (s.setHostMoves l).status = s.status := rfl
@[simp] theorem setHostMoves_srcLen (l : List HostMove) (s : State) : (s.setHostMoves l).srcLen = s.srcLen := rfl
@[simp] theorem setHostMoves_dstCap (l : List HostMove) (s : State) : (s.setHostMoves l).dstCap = s.dstCap := rfl
@[simp] theorem setHostMoves_rowPix (l : List HostMove) (s : State) : (s.setHostMoves l).rowPix = s.rowPix := rfl
@[simp] theorem setHostMoves_rlen (l : List HostMove) (s : State) : (s.setHostMoves l).rlen = s.rlen := rfl
@[simp] theorem setHostMoves_width (l : List HostMove) (s : State) : (s.setHostMoves l).width = s.width := rfl
@[simp] theorem setHostMoves_height (l : List HostMove) (s : State) : (s.setHostMoves l).height = s.height := rfl
@[simp] theorem setHostMoves_g (l : List HostMove) (s : State) : (s.setHostMoves l).g = s.g := rfl
@[simp] theorem setHostMoves_p0 (l : List HostMove) (s : State) : (s.setHostMoves l).p0 = s.p0 := rfl
@[simp] theorem setHostMoves_p1 (l : List HostMove) (s : State) : (s.setHostMoves l).p1 = s.p1 := rfl
@[simp] theorem setHostMoves_p2 (l : List HostMove) (s : State) : (s.setHostMoves l).p2 = s.p2 := rfl
@[simp] theorem setHostMoves_p3 (l : List HostMove) (s : State) : (s.setHostMoves l).p3 = s.p3 := rfl
@[simp] theorem setHostMoves_p4 (l : List HostMove) (s : State) : (s.setHostMoves l).p4 = s.p4 := rfl
@[simp] theorem setHostMoves_p5 (l : List HostMove) (s : State) : (s.setHostMoves l).p5 = s.p5 := rfl
@[simp] theorem setHostMoves_memS (l : List HostMove) (s : State) : (s.setHostMoves l).memS = s.memS := rfl
@[simp] theorem setHostMoves_memD (l : List HostMove) (s : State) : (s.setHostMoves l).memD = s.memD := rfl
@[simp] theorem setHostMoves_draws (l : List HostMove) (s : State) : (s.setHostMoves l).draws = s.draws := rfl
@[simp] theorem setHostMoves_resets (l : List HostMove) (s : State) : (s.setHostMoves l).resets = s.resets := rfl
@[simp] theorem setHostMoves_hostMoves (l : List HostMove) (s : State) : (s.setHostMoves l).hostMoves = l := rfl
@[simp] theorem setHostMoves_hostReplies (l : List HostMove) (s : State) : (s.setHostMoves l).hostReplies = s.hostReplies := rfl

/-! ### `pushReply` -/

@[simp] theorem pushReply_cmd (r : Reply) (s : State) : (s.pushReply r).cmd = s.cmd := rfl
@[simp] theorem pushReply_status (r : Reply) (s : State) : (s.pushReply r).status = s.status := rfl
@[simp] theorem pushReply_srcLen (r : Reply) (s : State) : (s.pushReply r).srcLen = s.srcLen := rfl
@[simp] theorem pushReply_dstCap (r : Reply) (s : State) : (s.pushReply r).dstCap = s.dstCap := rfl
@[simp] theorem pushReply_rowPix (r : Reply) (s : State) : (s.pushReply r).rowPix = s.rowPix := rfl
@[simp] theorem pushReply_rlen (r : Reply) (s : State) : (s.pushReply r).rlen = s.rlen := rfl
@[simp] theorem pushReply_width (r : Reply) (s : State) : (s.pushReply r).width = s.width := rfl
@[simp] theorem pushReply_height (r : Reply) (s : State) : (s.pushReply r).height = s.height := rfl
@[simp] theorem pushReply_g (r : Reply) (s : State) : (s.pushReply r).g = s.g := rfl
@[simp] theorem pushReply_p0 (r : Reply) (s : State) : (s.pushReply r).p0 = s.p0 := rfl
@[simp] theorem pushReply_p1 (r : Reply) (s : State) : (s.pushReply r).p1 = s.p1 := rfl
@[simp] theorem pushReply_p2 (r : Reply) (s : State) : (s.pushReply r).p2 = s.p2 := rfl
@[simp] theorem pushReply_p3 (r : Reply) (s : State) : (s.pushReply r).p3 = s.p3 := rfl
@[simp] theorem pushReply_p4 (r : Reply) (s : State) : (s.pushReply r).p4 = s.p4 := rfl
@[simp] theorem pushReply_p5 (r : Reply) (s : State) : (s.pushReply r).p5 = s.p5 := rfl
@[simp] theorem pushReply_memS (r : Reply) (s : State) : (s.pushReply r).memS = s.memS := rfl
@[simp] theorem pushReply_memD (r : Reply) (s : State) : (s.pushReply r).memD = s.memD := rfl
@[simp] theorem pushReply_draws (r : Reply) (s : State) : (s.pushReply r).draws = s.draws := rfl
@[simp] theorem pushReply_resets (r : Reply) (s : State) : (s.pushReply r).resets = s.resets := rfl
@[simp] theorem pushReply_hostMoves (r : Reply) (s : State) : (s.pushReply r).hostMoves = s.hostMoves := rfl
@[simp] theorem pushReply_hostReplies (r : Reply) (s : State) : (s.pushReply r).hostReplies = r :: s.hostReplies := rfl

/-! ### `afterReset` -/

@[simp] theorem afterReset_cmd (s : State) : (s.afterReset).cmd = 0 := rfl
@[simp] theorem afterReset_status (s : State) : (s.afterReset).status = 0 := rfl
@[simp] theorem afterReset_srcLen (s : State) : (s.afterReset).srcLen = 0 := rfl
@[simp] theorem afterReset_dstCap (s : State) : (s.afterReset).dstCap = 0 := rfl
@[simp] theorem afterReset_rowPix (s : State) : (s.afterReset).rowPix = 0 := rfl
@[simp] theorem afterReset_rlen (s : State) : (s.afterReset).rlen = 0 := rfl
@[simp] theorem afterReset_width (s : State) : (s.afterReset).width = 0 := rfl
@[simp] theorem afterReset_height (s : State) : (s.afterReset).height = 0 := rfl
@[simp] theorem afterReset_g (s : State) : (s.afterReset).g = 0 := rfl
@[simp] theorem afterReset_p0 (s : State) : (s.afterReset).p0 = 0 := rfl
@[simp] theorem afterReset_p1 (s : State) : (s.afterReset).p1 = 0 := rfl
@[simp] theorem afterReset_p2 (s : State) : (s.afterReset).p2 = 0 := rfl
@[simp] theorem afterReset_p3 (s : State) : (s.afterReset).p3 = 0 := rfl
@[simp] theorem afterReset_p4 (s : State) : (s.afterReset).p4 = 0 := rfl
@[simp] theorem afterReset_p5 (s : State) : (s.afterReset).p5 = 0 := rfl
@[simp] theorem afterReset_memS (s : State) : (s.afterReset).memS = [] := rfl
@[simp] theorem afterReset_memD (s : State) : (s.afterReset).memD = [] := rfl
@[simp] theorem afterReset_draws (s : State) : (s.afterReset).draws = s.draws := rfl
@[simp] theorem afterReset_resets (s : State) : (s.afterReset).resets = s.resets + 1 := rfl
@[simp] theorem afterReset_hostMoves (s : State) : (s.afterReset).hostMoves = s.hostMoves := rfl
@[simp] theorem afterReset_hostReplies (s : State) : (s.afterReset).hostReplies = s.hostReplies := rfl

/-! ### The ends of a command -/

/-- Taking an exception always answers, and changes `STATUS` only (R106). -/
theorem raise_eq (k : ErrorKind) (s : State) :
    s.raise k = .next { s with status := statusWord k.code } := rfl

/-- A command that does not raise answers with `STATUS` 0 (R51). -/
theorem finish_eq (s : State) : s.finish = .next { s with status := 0#32 } := rfl

@[simp] theorem statusWord_ok : statusWord okCode = 0#32 := rfl

@[simp] theorem statusWord_inputTooSmall : statusWord (ErrorKind.code .inputTooSmall) = 1#32 := rfl

@[simp] theorem statusWord_outputTooSmall : statusWord (ErrorKind.code .outputTooSmall) = 2#32 := rfl

@[simp] theorem statusWord_tooLarge : statusWord (ErrorKind.code .tooLarge) = 3#32 := rfl

@[simp] theorem statusWord_invalidArguments : statusWord (ErrorKind.code .invalidArguments) = 254#32 := rfl

/-- No error kind has the code of success. -/
theorem statusWord_code_ne_zero (k : ErrorKind) : statusWord k.code ≠ 0#32 := by
  cases k <;> decide

/-! ### The register window -/

/-- The slots a host write reaches (R12). -/
def slotWritable : Slot → Bool
  | .cmd | .srcLen | .dstCap | .rowPix | .g | .p0 | .p1 | .p2 | .p3 | .p4 | .p5 => true
  | .status | .rlen | .width | .height | .reserved => false

/-- Reading a slot after a host write: the value if it was written and is writable, else as before. -/
theorem readSlot_writeSlot (sl sl' : Slot) (v : Word) (s : State) :
    (s.writeSlot sl v).readSlot sl' = if sl' = sl ∧ slotWritable sl = true then v else s.readSlot sl' := by
  cases sl <;> cases sl' <;> rfl

@[simp] theorem writeSlot_memS (sl : Slot) (v : Word) (s : State) : (s.writeSlot sl v).memS = s.memS := by
  cases sl <;> rfl

@[simp] theorem writeSlot_memD (sl : Slot) (v : Word) (s : State) : (s.writeSlot sl v).memD = s.memD := by
  cases sl <;> rfl

@[simp] theorem writeSlot_draws (sl : Slot) (v : Word) (s : State) : (s.writeSlot sl v).draws = s.draws := by
  cases sl <;> rfl

@[simp] theorem writeSlot_resets (sl : Slot) (v : Word) (s : State) : (s.writeSlot sl v).resets = s.resets := by
  cases sl <;> rfl

@[simp] theorem writeSlot_hostMoves (sl : Slot) (v : Word) (s : State) : (s.writeSlot sl v).hostMoves = s.hostMoves := by
  cases sl <;> rfl

@[simp] theorem writeSlot_hostReplies (sl : Slot) (v : Word) (s : State) : (s.writeSlot sl v).hostReplies = s.hostReplies := by
  cases sl <;> rfl

@[simp] theorem writeSlot_status (sl : Slot) (v : Word) (s : State) : (s.writeSlot sl v).status = s.status := by
  cases sl <;> rfl

@[simp] theorem writeSlot_rlen (sl : Slot) (v : Word) (s : State) : (s.writeSlot sl v).rlen = s.rlen := by
  cases sl <;> rfl

@[simp] theorem writeSlot_width (sl : Slot) (v : Word) (s : State) : (s.writeSlot sl v).width = s.width := by
  cases sl <;> rfl

@[simp] theorem writeSlot_height (sl : Slot) (v : Word) (s : State) : (s.writeSlot sl v).height = s.height := by
  cases sl <;> rfl

/-! ### The backed memory -/

/-- With all 2^32 cells of both spaces backed, every command is within the backed memory (R42). -/
@[simp] theorem backed_true (s : State) : s.backed = true := by
  have h1 : s.srcLen.toNat ≤ Config.sBytes := Nat.le_of_lt s.srcLen.isLt
  have h2 : s.dstCap.toNat ≤ Config.dBytes := Nat.le_of_lt s.dstCap.isLt
  simp [backed, h1, h2]

end Sys2Proof.Machine.State
end

