-- ==== Sys2Proof/Laws/Groups.lean ====
section
/-!
SUPPORT. The bits of the group functions: lanes, `expand3`, `contract24`, and the length header.
-/

namespace Sys2Proof.Machine

/-! ### Bytes from bits -/

/-- Bit `b` of the byte built from the first `n` bits of `f`. -/
theorem getLsbD_byteOfBits (f : Nat → Bool) (n b : Nat) (hn : n ≤ 8) :
    (byteOfBits f n).getLsbD b = (decide (b < n) && f b) := by
  induction n with
  | zero => simp [byteOfBits]
  | succ n ih =>
    have ih := ih (by omega)
    have hone : ((1#8 <<< n : Byte)).getLsbD b = decide (b = n) := by
      rw [BitVec.getLsbD_shiftLeft, BitVec.getLsbD_one, Bool.eq_iff_iff]
      simp only [Bool.and_eq_true, decide_eq_true_eq, Bool.not_eq_true', decide_eq_false_iff_not]
      omega
    have hlt : decide (b < n + 1) = (decide (b = n) || decide (b < n)) := by
      rw [Bool.eq_iff_iff]
      simp only [Bool.or_eq_true, decide_eq_true_eq]
      omega
    by_cases hf : f n = true
    · rw [byteOfBits, if_pos hf, BitVec.getLsbD_or, ih, hone, hlt]
      by_cases h : b = n
      · subst h; simp [hf]
      · simp [h]
    · rw [byteOfBits, if_neg hf, ih, hlt]
      by_cases h : b = n
      · subst h; simp [hf]
      · simp [h]

/-- Two bytes with the same eight bits are equal. -/
theorem byte_ext {x y : Byte} (h : ∀ b < 8, x.getLsbD b = y.getLsbD b) : x = y :=
  BitVec.eq_of_getLsbD_eq fun b hb => h b hb

/-- The threshold is the most-significant bit of the channel byte (R66). -/
theorem bitOfChannel_eq (c : Byte) : bitOfChannel c = c.getLsbD 7 := by
  revert c; decide

@[simp] theorem bitOfChannel_channelOfBit (b : Bool) : bitOfChannel (channelOfBit b) = b := by
  cases b <;> decide

/-- Different bits give different channel bytes (R65). -/
theorem channelOfBit_injective {a b : Bool} (h : channelOfBit a = channelOfBit b) : a = b := by
  rw [← bitOfChannel_channelOfBit a, h, bitOfChannel_channelOfBit]

/-- A channel byte made from a bit is 0 or 255 (R65). -/
theorem channelOfBit_mem (b : Bool) : channelOfBit b = 0#8 ∨ channelOfBit b = 255#8 := by
  cases b
  · exact .inl rfl
  · exact .inr rfl

/-! ### The group functions -/

/-- Bit `bit` of byte `i` of a contracted group (R66). -/
theorem getLsbD_byteAt_contract24 (p : Nat → Byte) {i bit : Nat} (hi : i < 3) (hb : bit < 8) :
    ((contract24 p).byteAt i).getLsbD bit = bitOfChannel (p (8 * i + bit)) := by
  have hd : decide (bit < 8) = true := decide_eq_true hb
  match i, hi with
  | 0, _ => rw [contract24, Group.byteAt, getLsbD_byteOfBits _ _ _ (by omega), hd, Bool.true_and]; simp
  | 1, _ => rw [contract24, Group.byteAt, getLsbD_byteOfBits _ _ _ (by omega), hd, Bool.true_and]
  | 2, _ => exact (getLsbD_byteOfBits _ _ _ (by omega)).trans (by rw [hd, Bool.true_and])

/-- Channel byte `8i + bit` of an expanded group (R63). -/
theorem expand3_at (gr : Group) {i bit : Nat} (hb : bit < 8) :
    expand3 gr (8 * i + bit) = channelOfBit ((gr.byteAt i).getLsbD bit) := by
  have h1 : (8 * i + bit) / 8 = i := by omega
  have h2 : (8 * i + bit) % 8 = bit := by omega
  simp [expand3, h1, h2]

/-- Two groups with the same three bytes are equal. -/
theorem group_ext {x y : Group} (h : ∀ i < 3, x.byteAt i = y.byteAt i) : x = y := by
  cases x
  cases y
  have h0 := h 0 (by omega)
  have h1 := h 1 (by omega)
  have h2 := h 2 (by omega)
  simp only [Group.byteAt] at h0 h1 h2
  simp [h0, h1, h2]

/-- `contract24` reads its argument at 0, …, 23 only, and there only the most-significant bits. -/
theorem contract24_congr {p q : Nat → Byte} (h : ∀ k < 24, bitOfChannel (p k) = bitOfChannel (q k)) :
    contract24 p = contract24 q := by
  refine group_ext fun i hi => byte_ext fun b hb => ?_
  rw [getLsbD_byteAt_contract24 p hi hb, getLsbD_byteAt_contract24 q hi hb]
  exact h _ (by omega)

/-- The contraction of channel bytes made from bits reads those bits. -/
theorem getLsbD_byteAt_contract24_of_bits {p : Nat → Byte} {f : Nat → Bool}
    (h : ∀ k < 24, p k = channelOfBit (f k)) {i bit : Nat} (hi : i < 3) (hb : bit < 8) :
    ((contract24 p).byteAt i).getLsbD bit = f (8 * i + bit) := by
  rw [getLsbD_byteAt_contract24 p hi hb, h _ (by omega), bitOfChannel_channelOfBit]

/-! ### Lanes -/

theorem getLsbD_lane (w : Word) (j b : Nat) : (lane w j).getLsbD b = (decide (b < 8) && w.getLsbD (8 * j + b)) := by
  simp [lane, BitVec.getLsbD_extractLsb']

theorem packLanes_eq_append (l0 l1 l2 l3 : Byte) :
    packLanes l0 l1 l2 l3 = ((l3 ++ l2 ++ l1 ++ l0 : BitVec (8 + 8 + 8 + 8)) : Word) := by
  apply BitVec.eq_of_toNat_eq
  have h0 := l0.isLt
  have h1 := l1.isLt
  have h2 := l2.isLt
  have h3 := l3.isLt
  simp only [packLanes, BitVec.toNat_ofNat, BitVec.toNat_append]
  rw [← Nat.shiftLeft_add_eq_or_of_lt h2, ← Nat.shiftLeft_add_eq_or_of_lt h1, ← Nat.shiftLeft_add_eq_or_of_lt h0]
  simp only [Nat.shiftLeft_eq]
  omega

/-- Bit `k` of a packed register is bit `k mod 8` of lane `k div 8`. -/
theorem getLsbD_packLanes (l0 l1 l2 l3 : Byte) (k : Nat) :
    (packLanes l0 l1 l2 l3).getLsbD k =
      if k < 8 then l0.getLsbD k else if k < 16 then l1.getLsbD (k - 8)
      else if k < 24 then l2.getLsbD (k - 16) else l3.getLsbD (k - 24) := by
  rw [packLanes_eq_append, BitVec.getLsbD_append, BitVec.getLsbD_append, BitVec.getLsbD_append]
  have e2 : k - 8 - 8 = k - 16 := by omega
  have e3 : k - 16 - 8 = k - 24 := by omega
  rw [e2, e3]
  by_cases h0 : k < 8
  · rw [if_pos h0, if_pos h0]
  · rw [if_neg h0, if_neg h0]
    by_cases h1 : k < 16
    · rw [if_pos (show k - 8 < 8 by omega), if_pos h1]
    · rw [if_neg (show ¬ k - 8 < 8 by omega), if_neg h1]
      by_cases h2 : k < 24
      · rw [if_pos (show k - 16 < 8 by omega), if_pos h2]
      · rw [if_neg (show ¬ k - 16 < 8 by omega), if_neg h2]

/-- Lane `j` of a packed register. -/
theorem lane_packLanes (l0 l1 l2 l3 : Byte) {j : Nat} (hj : j < 4) :
    lane (packLanes l0 l1 l2 l3) j = if j = 0 then l0 else if j = 1 then l1 else if j = 2 then l2 else l3 := by
  refine byte_ext fun b hb => ?_
  rw [getLsbD_lane, getLsbD_packLanes, decide_eq_true hb, Bool.true_and]
  match j, hj with
  | 0, _ => rw [if_pos (by omega), if_pos rfl]; congr 1; omega
  | 1, _ => rw [if_neg (by omega), if_pos (by omega), if_neg (by omega), if_pos rfl]; congr 1; omega
  | 2, _ =>
    rw [if_neg (by omega), if_neg (by omega), if_pos (by omega), if_neg (by omega), if_neg (by omega), if_pos rfl]
    congr 1; omega
  | 3, _ =>
    rw [if_neg (by omega), if_neg (by omega), if_neg (by omega), if_neg (by omega), if_neg (by omega), if_neg (by omega)]
    congr 1; omega

/-- Lane `j` of pixel-group register `r` is channel byte `4r + j` (R21, R64). -/
theorem lane_pixelWord (p : Nat → Byte) (r : Nat) {j : Nat} (hj : j < 4) :
    lane (pixelWord p r) j = p (4 * r + j) := by
  rw [pixelWord, lane_packLanes _ _ _ _ hj]
  match j, hj with
  | 0, _ => rfl
  | 1, _ => rfl
  | 2, _ => rfl
  | 3, _ => rfl

/-- After the six registers are written from `f`, register `r` holds `f r` (R21). -/
theorem pixelReg_setPixels (f : Nat → Word) (s : State) {r : Nat} (hr : r < 6) :
    (s.setPixels f).pixelReg r = f r := by
  match r, hr with
  | 0, _ => rfl
  | 1, _ => rfl
  | 2, _ => rfl
  | 3, _ => rfl
  | 4, _ => rfl
  | 5, _ => rfl

/-- The channel bytes after the six registers are written from an expanded group (R21). -/
theorem channel_setPixels (p : Nat → Byte) (s : State) {k : Nat} (hk : k < 24) :
    (s.setPixels (pixelWord p)).channel k = p k := by
  rw [State.channel, pixelReg_setPixels _ _ (by omega), lane_pixelWord _ _ (by omega)]
  congr 1
  omega

/-- Byte `i` of the group in `G[23:0]` (R20). -/
theorem byteAt_groupOfWord (w : Word) {i : Nat} (hi : i < 3) : (groupOfWord w).byteAt i = lane w i := by
  match i, hi with
  | 0, _ => rfl
  | 1, _ => rfl
  | 2, _ => rfl

/-- Bit `k` of the register that holds a group (R20, R67). -/
theorem getLsbD_wordOfGroup (gr : Group) (k : Nat) :
    (wordOfGroup gr).getLsbD k = (decide (k < 24) && (gr.byteAt (k / 8)).getLsbD (k % 8)) := by
  rw [wordOfGroup, getLsbD_packLanes]
  split
  · have h1 : k / 8 = 0 := by omega
    have h2 : k % 8 = k := by omega
    simp [h1, h2, Group.byteAt, show k < 24 by omega]
  · split
    · have h1 : k / 8 = 1 := by omega
      have h2 : k % 8 = k - 8 := by omega
      simp [h1, h2, Group.byteAt, show k < 24 by omega]
    · split
      · have h1 : k / 8 = 2 := by omega
        have h2 : k % 8 = k - 16 := by omega
        simp [Group.byteAt, *]
      · simp [*]

/-! ### The length header -/

/-- The declared length fits 24 bits (R60). -/
theorem headerLen_lt (gr : Group) : headerLen gr < 2 ^ 24 := by
  have h0 := gr.b0.isLt
  have h1 := gr.b1.isLt
  have h2 := gr.b2.isLt
  simp only [headerLen, Nat.shiftLeft_eq]
  omega

/-- The three header bytes of a length read back as the length (R60). -/
theorem headerLen_headerBytes {n : Nat} (h : n < 2 ^ 24) : headerLen (headerBytes n) = n := by
  simp only [headerLen, headerBytes, BitVec.toNat_ofNat, Nat.shiftLeft_eq, Nat.shiftRight_eq_div_pow]
  omega

/-- Bit `k` of the declared length is bit `k mod 8` of header byte `k div 8` (R60, R62). -/
theorem testBit_headerLen (gr : Group) (k : Nat) :
    (headerLen gr).testBit k = (decide (k < 24) && (gr.byteAt (k / 8)).getLsbD (k % 8)) := by
  rw [← getLsbD_wordOfGroup]
  have h := headerLen_lt gr
  have : headerLen gr = (wordOfGroup gr).toNat := by
    have e : (wordOfGroup gr).toNat = headerLen gr % 2 ^ 32 := by
      simp [wordOfGroup, packLanes, headerLen]
    rw [e, Nat.mod_eq_of_lt (by omega)]
  rw [this]
  rfl

/-- Byte `i` of the header of `n` is `n` shifted right by `8i` (R34, R60). -/
theorem byteAt_headerBytes (n : Nat) {i : Nat} (hi : i < 3) :
    (headerBytes n).byteAt i = BitVec.ofNat 8 (n >>> (8 * i)) := by
  match i, hi with
  | 0, _ => rfl
  | 1, _ => rfl
  | 2, _ => rfl

/-- The header channel bytes of a length are its bits (R73). -/
theorem expand3_headerBytes (n : Nat) {k : Nat} (hk : k < 24) :
    expand3 (headerBytes n) k = channelOfBit (n.testBit k) := by
  have h : k % 8 < 8 := by omega
  rw [expand3, byteAt_headerBytes n (by omega), BitVec.getLsbD_ofNat]
  congr 1
  simp only [h, decide_true, Bool.true_and, Nat.testBit_shiftRight]
  congr 1
  omega

end Sys2Proof.Machine
end

