-- ==== Sys2Proof/Laws/Memory.lean ====
section
/-!
SUPPORT. The laws of a byte space: read after write, the canonical form is kept, and canonical memories that read alike are
equal.
-/

namespace Sys2Proof.Machine.Memory

@[simp] theorem get?_nil (a : Nat) : Memory.get? [] a = none := rfl

/-- Read after write. -/
@[simp] theorem get?_write (m : Memory) (a x : Nat) (v : Byte) :
    (m.write a v).get? x = if x = a then some v else m.get? x := by
  induction m with
  | nil => simp [Memory.write, Memory.get?]
  | cons c m ih =>
    obtain ⟨b, w⟩ := c
    simp only [Memory.write]
    split
    · simp [Memory.get?]
    · split
      · subst b
        by_cases hx : x = a <;> simp [Memory.get?, hx]
      · by_cases hx : x = b
        · subst hx
          have : x ≠ a := fun h => by simp_all
          simp [Memory.get?, this]
        · simp [Memory.get?, hx, ih]

/-- Read after a range of writes. -/
theorem get?_writeRange (m : Memory) (base n x : Nat) (f : Nat → Byte) :
    (m.writeRange base f n).get? x = if base ≤ x ∧ x < base + n then some (f (x - base)) else m.get? x := by
  induction n with
  | zero => simp [Memory.writeRange, show ¬(base ≤ x ∧ x < base) by omega]
  | succ n ih =>
    simp only [Memory.writeRange, get?_write, ih]
    by_cases hx : x = base + n
    · subst hx; simp
    · by_cases h : base ≤ x ∧ x < base + n
      · simp [hx, h, show x < base + (n + 1) by omega]
      · simp [hx, h, show ¬(base ≤ x ∧ x < base + (n + 1)) by omega]

/-- A range write depends only on the bytes in the range. -/
theorem writeRange_congr (m : Memory) (base n : Nat) (f f' : Nat → Byte) (h : ∀ k < n, f k = f' k) :
    m.writeRange base f n = m.writeRange base f' n := by
  induction n with
  | zero => rfl
  | succ n ih =>
    simp only [Memory.writeRange]
    rw [ih fun k hk => h k (by omega), h n (by omega)]

/-- A cell of a memory after a write is the written cell or was there before. -/
theorem mem_write {m : Memory} {a : Nat} {v : Byte} {c : Host.Cell} (h : c ∈ m.write a v) : c = (a, v) ∨ c ∈ m := by
  induction m with
  | nil => simpa [Memory.write] using h
  | cons d m ih =>
    obtain ⟨b, w⟩ := d
    simp only [Memory.write] at h
    split at h
    · simpa using h
    · split at h
      · rcases List.mem_cons.1 h with h | h
        · exact .inl h
        · exact .inr (List.mem_cons_of_mem _ h)
      · rcases List.mem_cons.1 h with h | h
        · exact .inr (by simp [h])
        · exact (ih h).imp id (List.mem_cons_of_mem _)

theorem wf_nil : Memory.wf [] := by simp [Memory.wf]

/-- A write inside the space keeps the canonical form. -/
theorem wf_write {m : Memory} (hm : m.wf) {a : Nat} (ha : a < 2 ^ 32) (v : Byte) : (m.write a v).wf := by
  refine ⟨?_, fun c hc => ?_⟩
  · have hs := hm.1
    clear hm
    induction m with
    | nil => simp [Memory.write]
    | cons d m ih =>
      obtain ⟨b, w⟩ := d
      have hs' := List.pairwise_cons.1 hs
      simp only [Memory.write]
      split
      · rename_i hab
        refine List.pairwise_cons.2 ⟨fun c hc => ?_, hs⟩
        rcases List.mem_cons.1 hc with rfl | hc
        · exact hab
        · exact lt_trans hab (hs'.1 c hc)
      · split
        · rename_i hab
          exact List.pairwise_cons.2 ⟨fun c hc => hab ▸ hs'.1 c hc, hs'.2⟩
        · refine List.pairwise_cons.2 ⟨fun c hc => ?_, ih hs'.2⟩
          rcases mem_write hc with rfl | hc
          · simp only; omega
          · exact hs'.1 c hc
  · rcases mem_write hc with rfl | hc
    · exact ha
    · exact hm.2 c hc

/-- A range of writes inside the space keeps the canonical form. -/
theorem wf_writeRange {m : Memory} (hm : m.wf) {base n : Nat} (h : base + n ≤ 2 ^ 32) (f : Nat → Byte) :
    (m.writeRange base f n).wf := by
  induction n with
  | zero => exact hm
  | succ n ih => exact wf_write (ih (by omega)) (by omega) _

/-- Below the first address nothing is listed. -/
theorem get?_eq_none_of_lt {m : Memory} {x : Nat} (h : ∀ c ∈ m, x < c.1) : m.get? x = none := by
  induction m with
  | nil => rfl
  | cons d m ih =>
    have hd : x ≠ d.1 := by have := h d (by simp); omega
    rw [Memory.get?, if_neg hd]
    exact ih fun c hc => h c (List.mem_cons_of_mem _ hc)

/-- Equal memories are equal data: canonical memories that read alike are equal. -/
theorem ext_of_wf {m m' : Memory} (hm : m.wf) (hm' : m'.wf) (h : ∀ x, m.get? x = m'.get? x) : m = m' := by
  have hs := hm.1
  have hs' := hm'.1
  clear hm hm'
  induction m generalizing m' with
  | nil =>
    cases m' with
    | nil => rfl
    | cons d m' => simpa [Memory.get?] using h d.1
  | cons c m ih =>
    cases m' with
    | nil => simpa [Memory.get?] using h c.1
    | cons d m' =>
      obtain ⟨a, v⟩ := c
      obtain ⟨b, w⟩ := d
      have hc := List.pairwise_cons.1 hs
      have hd := List.pairwise_cons.1 hs'
      have hab : a = b := by
        by_contra hne
        rcases Nat.lt_or_gt_of_ne hne with hlt | hlt
        · have h1 := h a
          rw [get?_eq_none_of_lt (m := (b, w) :: m')] at h1
          · simp [Memory.get?] at h1
          · intro e he
            rcases List.mem_cons.1 he with rfl | he
            · exact hlt
            · exact lt_trans hlt (hd.1 e he)
        · have h1 := h b
          rw [get?_eq_none_of_lt (m := (a, v) :: m)] at h1
          · simp [Memory.get?] at h1
          · intro e he
            rcases List.mem_cons.1 he with rfl | he
            · exact hlt
            · exact lt_trans hlt (hc.1 e he)
      subst hab
      have hvw : v = w := by simpa [Memory.get?] using h a
      subst hvw
      have : m = m' := by
        refine ih (fun x => ?_) hc.2 hd.2
        by_cases hx : x = a
        · subst hx
          rw [get?_eq_none_of_lt hc.1, get?_eq_none_of_lt hd.1]
        · simpa [Memory.get?, hx] using h x
      rw [this]

end Sys2Proof.Machine.Memory

namespace Sys2Proof.Machine.State

/-- A cell of `D` that holds a byte reads as that byte. -/
theorem readD_of_get? {s : State} {a : Nat} {v : Byte} (h : s.memD.get? a = some v) : s.readD a = v := by
  simp [readD, h]

/-- Reading `D` depends on the listed cell and the reset number only. -/
theorem readD_congr {s t : State} {a : Nat} (h : t.memD.get? a = s.memD.get? a) (hr : t.resets = s.resets) :
    t.readD a = s.readD a := by
  simp [readD, h, hr]

end Sys2Proof.Machine.State
end

