-- ==== Sys2Proof/Laws/Sizes.lean ====
section
/-!
SUPPORT. The size functions: the closed form of `extendedSize`, and what rounding to rows gives.
-/

namespace Sys2Proof.Machine

/-- `extendedSize` fails exactly from 2^24 on (R52). -/
theorem extendedSize_error {n : Nat} (h : 16777216 ≤ n) : extendedSize n = .error .tooLarge := by
  simp [extendedSize, maxPayload, h]

/-- Everything `extendedSize` answers on a legal length, in closed form (R53). -/
theorem extendedSize_ok {n : Nat} (h : n < 16777216) : extendedSize n = .ok (24 * (1 + (n + 2) / 3)) := by
  have : ((3 + n + 2) - (3 + n + 2) % 3) * 8 = 24 * (1 + (n + 2) / 3) := by omega
  simp [extendedSize, maxPayload, Nat.not_le.2 h, this]

/-- The two cases of `extendedSize`. -/
theorem extendedSize_cases (n : Nat) :
    (16777216 ≤ n ∧ extendedSize n = .error .tooLarge) ∨
      (n < 16777216 ∧ extendedSize n = .ok (24 * (1 + (n + 2) / 3))) := by
  rcases Nat.lt_or_ge n 16777216 with h | h
  · exact .inr ⟨h, extendedSize_ok h⟩
  · exact .inl ⟨h, extendedSize_error h⟩

/-- What rounding to whole rows gives, under either reading (R58). -/
theorem padToRows_spec (rule : RowPadRule) (e : Nat) {r : Nat} (hr : 0 < r) :
    r ∣ padToRows rule e r ∧ e ≤ padToRows rule e r ∧ padToRows rule e r ≤ e + r := by
  cases rule
  · refine ⟨⟨_, Nat.mul_comm _ _⟩, ?_, ?_⟩
    · have h := Nat.div_add_mod (e + r - 1) r
      have h2 := Nat.mod_lt (e + r - 1) hr
      rw [Nat.mul_comm] at h
      simp only [padToRows]
      omega
    · have h := Nat.div_mul_le_self (e + r - 1) r
      simp only [padToRows]
      omega
  · refine ⟨⟨_, Nat.mul_comm _ _⟩, ?_, ?_⟩
    · have h := Nat.div_add_mod e r
      have h2 := Nat.mod_lt e hr
      rw [Nat.mul_comm] at h
      simp only [padToRows, Nat.add_mul, Nat.one_mul]
      omega
    · have h := Nat.div_mul_le_self e r
      simp only [padToRows, Nat.add_mul, Nat.one_mul]
      omega

/-- Under `ceil` less than a row is added (R58). -/
theorem padToRows_ceil_lt (e : Nat) {r : Nat} (hr : 0 < r) : padToRows .ceil e r < e + r := by
  have h := Nat.div_mul_le_self (e + r - 1) r
  simp only [padToRows]
  omega

end Sys2Proof.Machine
end

