-- ==== Sys2Proof/Laws/Decode.lean ====
section
/-!
SUPPORT. Everything DECODE can do: its four outcomes, and which byte every cell of its output holds.
-/

namespace Sys2Proof.Machine

/-- The declared length fits 24 bits (R85). -/
theorem declaredLen_lt (rd : Nat → Byte) : declaredLen rd < 16777216 := headerLen_lt _

/-- Bit `k` of the declared length is the thresholded channel byte `k` (R85). -/
theorem testBit_declaredLen (rd : Nat → Byte) {k : Nat} (hk : k < 24) :
    (declaredLen rd).testBit k = bitOfChannel (rd k) := by
  rw [declaredLen, testBit_headerLen, decide_eq_true hk, Bool.true_and,
    getLsbD_byteAt_contract24 rd (by omega) (by omega), show 8 * (k / 8) + k % 8 = k by omega]

/-- The declared length depends on the thresholded header only (R94). -/
theorem declaredLen_congr {rd rd' : Nat → Byte} (h : ∀ k < 24, bitOfChannel (rd k) = bitOfChannel (rd' k)) :
    declaredLen rd = declaredLen rd' := by
  rw [declaredLen, declaredLen, contract24_congr h]

/-- A header made from the bits of a length declares it (R73, R85). -/
theorem declaredLen_of_bits {rd : Nat → Byte} {n : Nat} (hn : n < 16777216)
    (h : ∀ k < 24, rd k = channelOfBit (n.testBit k)) : declaredLen rd = n := by
  apply Nat.eq_of_testBit_eq
  intro k
  by_cases hk : k < 24
  · rw [testBit_declaredLen rd hk, h k hk, bitOfChannel_channelOfBit]
  · have hp : (2 : Nat) ^ 24 ≤ 2 ^ k := Nat.pow_le_pow_right (by omega) (by omega)
    have h1 := declaredLen_lt rd
    rw [Nat.testBit_lt_two_pow (by omega), Nat.testBit_lt_two_pow (by omega)]

/-- The decoded payload, cell by cell (R88): nothing at or beyond the declared length is written. -/
theorem get?_writeDecoded (rd : Nat → Byte) (len j : Nat) (m : Memory) (x : Nat) :
    (writeDecoded rd len j m).get? x =
      if x < len ∧ x < 3 * j then some ((decodedGroup rd (x / 3)).byteAt (x % 3)) else m.get? x := by
  induction j with
  | zero => rw [writeDecoded, if_neg (by omega)]
  | succ j ih =>
    rw [writeDecoded, Memory.get?_writeRange, ih]
    by_cases h : 3 * j ≤ x ∧ x < 3 * j + min groupBytes (len - 3 * j)
    · rw [if_pos h]
      simp only [groupBytes] at h
      rw [if_pos (by omega), show x / 3 = j by omega, show x - 3 * j = x % 3 by omega]
    · rw [if_neg h]
      simp only [groupBytes] at h
      by_cases h2 : x < len ∧ x < 3 * j
      · rw [if_pos h2, if_pos (by omega)]
      · rw [if_neg h2, if_neg (by omega)]

/-- Bit `b` of byte `x` of the decoded payload is the thresholded channel byte `24 + 8x + b` (R91). -/
theorem getLsbD_decodedByte (rd : Nat → Byte) (x : Nat) {b : Nat} (hb : b < 8) :
    ((decodedGroup rd (x / 3)).byteAt (x % 3)).getLsbD b = bitOfChannel (rd (24 + 8 * x + b)) := by
  rw [decodedGroup, getLsbD_byteAt_contract24 _ (by omega) hb,
    show 24 + 24 * (x / 3) + (8 * (x % 3) + b) = 24 + 8 * x + b by omega]

/-- The output of DECODE keeps the canonical form of `D`. -/
theorem wf_writeDecoded (rd : Nat → Byte) {len : Nat} (hl : len ≤ 2 ^ 32) (j : Nat) {m : Memory} (hm : m.wf) :
    (writeDecoded rd len j m).wf := by
  induction j with
  | zero => exact hm
  | succ j ih =>
    rcases Nat.lt_or_ge len (3 * j) with h | h
    · have : min groupBytes (len - 3 * j) = 0 := by omega
      rw [writeDecoded, this]
      exact ih
    · exact Memory.wf_writeRange ih (by simp only [groupBytes]; omega) _

/-- The four outcomes of DECODE, each with its whole next state (R90). -/
theorem execDecode_cases (s : State) :
    (s.srcLen.toNat < 25 ∧ execDecode s = .next { s with status := 1#32 }) ∨
    (25 ≤ s.srcLen.toNat ∧ s.srcLen.toNat < 24 * (1 + (declaredLen s.readS + 2) / 3) ∧
      execDecode s = .next { s with status := 1#32 }) ∨
    (25 ≤ s.srcLen.toNat ∧ 24 * (1 + (declaredLen s.readS + 2) / 3) ≤ s.srcLen.toNat ∧
      s.dstCap.toNat < declaredLen s.readS ∧ execDecode s = .next { s with status := 2#32 }) ∨
    (25 ≤ s.srcLen.toNat ∧ 24 * (1 + (declaredLen s.readS + 2) / 3) ≤ s.srcLen.toNat ∧
      declaredLen s.readS ≤ s.dstCap.toNat ∧
      execDecode s = .next { s with
        memD := writeDecoded s.readS (declaredLen s.readS) ((declaredLen s.readS + 2) / 3) s.memD
        rlen := BitVec.ofNat 32 (declaredLen s.readS)
        status := 0#32 }) := by
  have hl := declaredLen_lt s.readS
  have hrun : 25 ≤ s.srcLen.toNat → execDecode s =
      if s.srcLen.toNat < 24 * (1 + (declaredLen s.readS + 2) / 3) then s.raise .inputTooSmall
      else if s.dstCap.toNat < declaredLen s.readS then s.raise .outputTooSmall
      else ((s.setMemD (writeDecoded s.readS (declaredLen s.readS) ((declaredLen s.readS + 2) / 3) s.memD)).setRlen
        (BitVec.ofNat 32 (declaredLen s.readS))).finish := by
    intro h
    rw [execDecode, minDecodeLen, if_neg (Nat.not_lt.2 h)]
    simp only [extendedSize_ok hl]
  generalize hL : declaredLen s.readS = len at *
  rcases Nat.lt_or_ge s.srcLen.toNat 25 with h | h
  · exact .inl ⟨h, by rw [execDecode, minDecodeLen, if_pos h, State.raise_eq]; rfl⟩
  · rw [hrun h]
    rcases Nat.lt_or_ge s.srcLen.toNat (24 * (1 + (len + 2) / 3)) with h1 | h1
    · exact .inr (.inl ⟨h, h1, by rw [if_pos h1, State.raise_eq]; rfl⟩)
    · rw [if_neg (Nat.not_lt.2 h1)]
      rcases Nat.lt_or_ge s.dstCap.toNat len with h2 | h2
      · exact .inr (.inr (.inl ⟨h, h1, h2, by rw [if_pos h2, State.raise_eq]; rfl⟩))
      · exact .inr (.inr (.inr ⟨h, h1, h2, by rw [if_neg (Nat.not_lt.2 h2), State.finish_eq]; rfl⟩))

/-- The successful DECODE with its next state under a name: what changes, and which byte every cell of `D` reads as. -/
theorem execDecode_success (s : State) (h1 : 25 ≤ s.srcLen.toNat)
    (h2 : 24 * (1 + (declaredLen s.readS + 2) / 3) ≤ s.srcLen.toNat) (h3 : declaredLen s.readS ≤ s.dstCap.toNat) :
    ∃ t, execDecode s = .next t ∧
      t = { s with memD := t.memD, rlen := BitVec.ofNat 32 (declaredLen s.readS), status := 0#32 } ∧
      t.memD = writeDecoded s.readS (declaredLen s.readS) ((declaredLen s.readS + 2) / 3) s.memD ∧
      ∀ x, t.readD x =
        if x < declaredLen s.readS then (decodedGroup s.readS (x / 3)).byteAt (x % 3) else s.readD x := by
  rcases execDecode_cases s with ⟨h, _⟩ | ⟨_, h, _⟩ | ⟨_, _, h, _⟩ | ⟨_, _, _, e⟩
  · omega
  · omega
  · omega
  · refine ⟨_, e, rfl, rfl, fun x => ?_⟩
    simp only [State.readD, get?_writeDecoded]
    by_cases h : x < declaredLen s.readS
    · rw [if_pos ⟨h, by omega⟩, if_pos h]
      rfl
    · rw [if_neg (fun h' => h h'.1), if_neg h]

end Sys2Proof.Machine
end

