-- ==== Sys2Proof/Laws/Encode.lean ====
section
/-!
SUPPORT. Everything ENCODE can do: its three outcomes, and which byte every cell of its output holds.
-/

namespace Sys2Proof.Machine

/-- Byte `i` of the payload continued by the pad draw (R75): what the encoder expands at payload position `i`. -/
def padded (rd : Nat → Byte) (pad : PadDraw) (n i : Nat) : Byte :=
  if i < n then rd i else if n % 3 = 1 ∧ i = n then pad.pad0 else pad.pad1

/-- The expansion of three consecutive bytes, bit by bit (R63). -/
theorem expand3_three (f : Nat → Byte) (b : Nat) {k : Nat} (hk : k < 24) :
    expand3 ⟨f b, f (b + 1), f (b + 2)⟩ k = channelOfBit ((f (b + k / 8)).getLsbD (k % 8)) := by
  have h : k / 8 < 3 := by omega
  rw [expand3]
  match k / 8, h with
  | 0, _ => rfl
  | 1, _ => rfl
  | 2, _ => rfl

/-- The last group is the next three bytes of the padded payload (R75). -/
theorem lastGroup_eq (rd : Nat → Byte) (pad : PadDraw) {n : Nat} (hn : 1 ≤ n) :
    lastGroup rd pad n =
      ⟨padded rd pad n (fullBytes n), padded rd pad n (fullBytes n + 1), padded rd pad n (fullBytes n + 2)⟩ := by
  have hf : fullBytes n = (n - 1) - (n - 1) % 3 := rfl
  have hr : n - fullBytes n = 1 ∨ n - fullBytes n = 2 ∨ n - fullBytes n = 3 := by omega
  simp only [lastGroup]
  congr 1
  · rw [padded, if_pos (by omega)]
  · rcases hr with h | h | h
    · rw [if_neg (by omega), padded, if_neg (by omega), if_pos (by omega)]
    · rw [if_pos (by omega), padded, if_pos (by omega)]
    · rw [if_pos (by omega), padded, if_pos (by omega)]
  · rcases hr with h | h | h
    · rw [if_neg (by omega), padded, if_neg (by omega), if_neg (by omega)]
    · rw [if_neg (by omega), padded, if_neg (by omega), if_neg (by omega)]
    · rw [if_pos (by omega), padded, if_pos (by omega)]

/-- The leading groups, cell by cell (R74). -/
theorem get?_writeFullGroups (rd : Nat → Byte) (j : Nat) (m : Memory) (x : Nat) :
    (writeFullGroups rd j m).get? x =
      if 24 ≤ x ∧ x < 24 + 24 * j then some (channelOfBit ((rd ((x - 24) / 8)).getLsbD ((x - 24) % 8)))
      else m.get? x := by
  induction j with
  | zero => rw [writeFullGroups, if_neg (by omega)]
  | succ j ih =>
    rw [writeFullGroups, Memory.get?_writeRange, ih]
    by_cases h : 24 + 24 * j ≤ x ∧ x < 24 + 24 * j + groupPix
    · rw [if_pos h]
      simp only [groupPix] at h
      rw [if_pos (by omega), expand3_three _ _ (by omega),
        show 3 * j + (x - (24 + 24 * j)) / 8 = (x - 24) / 8 by omega,
        show (x - (24 + 24 * j)) % 8 = (x - 24) % 8 by omega]
    · rw [if_neg h]
      simp only [groupPix] at h
      by_cases h2 : 24 ≤ x ∧ x < 24 + 24 * j
      · rw [if_pos h2, if_pos (by omega)]
      · rw [if_neg h2, if_neg (by omega)]

/-- All payload groups, cell by cell (R74, R75, R77). -/
theorem get?_writePayload (rd : Nat → Byte) (pad : PadDraw) (n : Nat) (m : Memory) (x : Nat) :
    (writePayload rd pad n m).get? x =
      if 24 ≤ x ∧ x < 24 * (1 + (n + 2) / 3) then
        some (channelOfBit ((padded rd pad n ((x - 24) / 8)).getLsbD ((x - 24) % 8)))
      else m.get? x := by
  by_cases hn : n = 0
  · subst hn
    rw [writePayload, if_pos rfl, if_neg (by omega)]
  · have hf : fullBytes n = (n - 1) - (n - 1) % 3 := rfl
    rw [writePayload, if_neg hn, Memory.get?_writeRange, get?_writeFullGroups, lastGroup_eq rd pad (by omega)]
    by_cases h : 24 + 8 * fullBytes n ≤ x ∧ x < 24 + 8 * fullBytes n + groupPix
    · rw [if_pos h]
      simp only [groupPix] at h
      rw [if_pos (by omega), expand3_three (padded rd pad n) _ (by omega),
        show fullBytes n + (x - (24 + 8 * fullBytes n)) / 8 = (x - 24) / 8 by omega,
        show (x - (24 + 8 * fullBytes n)) % 8 = (x - 24) % 8 by omega]
    · rw [if_neg h]
      simp only [groupPix] at h
      by_cases h2 : 24 ≤ x ∧ x < 24 + 24 * (fullBytes n / 3)
      · rw [if_pos h2, if_pos (by omega), padded, if_pos (by omega)]
      · rw [if_neg h2, if_neg (by omega)]

/-- The whole output of ENCODE, cell by cell (R73 to R78): header bits, payload and pad bits, zeros to the capacity, and
nothing else written. -/
theorem get?_encodeOutput (rd : Nat → Byte) (pad : PadDraw) {n cap : Nat} (hc : 24 * (1 + (n + 2) / 3) ≤ cap)
    (m : Memory) (x : Nat) :
    (encodeOutput rd pad n (24 * (1 + (n + 2) / 3)) cap m).get? x =
      if x < 24 then some (channelOfBit (n.testBit x))
      else if x < 24 * (1 + (n + 2) / 3) then
        some (channelOfBit ((padded rd pad n ((x - 24) / 8)).getLsbD ((x - 24) % 8)))
      else if x < cap then some 0#8
      else m.get? x := by
  rw [encodeOutput, zeroFill, Memory.get?_writeRange, get?_writePayload, writeHeader, Memory.get?_writeRange]
  by_cases h0 : x < 24
  · rw [if_neg (by omega), if_neg (by omega), if_pos (by simp only [groupPix]; omega), if_pos h0, Nat.sub_zero,
      expand3_headerBytes n h0]
  · rw [if_neg h0]
    by_cases h1 : x < 24 * (1 + (n + 2) / 3)
    · rw [if_pos h1, if_neg (by omega), if_pos (by omega)]
    · rw [if_neg h1]
      by_cases h2 : x < cap
      · rw [if_pos h2, if_pos (by omega)]
        rfl
      · rw [if_neg h2, if_neg (by omega), if_neg (by omega), if_neg (by simp only [groupPix]; omega)]

/-- ENCODE reads the payload only: bytes at or beyond `n` do not matter (R37, R76). -/
theorem encodeOutput_congr {rd rd' : Nat → Byte} (pad : PadDraw) {n used cap : Nat} (m : Memory)
    (h : ∀ a < n, rd a = rd' a) : encodeOutput rd pad n used cap m = encodeOutput rd' pad n used cap m := by
  have hg : ∀ j m, 3 * j ≤ n → writeFullGroups rd j m = writeFullGroups rd' j m := by
    intro j
    induction j with
    | zero => intro m _; rfl
    | succ j ih =>
      intro m hj
      rw [writeFullGroups, writeFullGroups, ih m (by omega), h _ (by omega), h _ (by omega), h _ (by omega)]
  have hf : fullBytes n = (n - 1) - (n - 1) % 3 := rfl
  rw [encodeOutput, encodeOutput, writePayload, writePayload]
  by_cases hn : n = 0
  · rw [if_pos hn, if_pos hn]
  · have hl : lastGroup rd pad n = lastGroup rd' pad n := by
      rw [lastGroup_eq rd pad (by omega), lastGroup_eq rd' pad (by omega)]
      have hp : ∀ i, padded rd pad n i = padded rd' pad n i := by
        intro i
        by_cases hi : i < n
        · rw [padded, padded, if_pos hi, if_pos hi, h i hi]
        · rw [padded, padded, if_neg hi, if_neg hi]
      simp only [hp]
    rw [if_neg hn, if_neg hn, hl, hg _ _ (by omega)]

/-- The output of ENCODE keeps the canonical form of `D`. -/
theorem wf_encodeOutput (rd : Nat → Byte) (pad : PadDraw) {n cap : Nat} (hc : 24 * (1 + (n + 2) / 3) ≤ cap)
    (hcap : cap ≤ 2 ^ 32) {m : Memory} (hm : m.wf) :
    (encodeOutput rd pad n (24 * (1 + (n + 2) / 3)) cap m).wf := by
  have hg : ∀ j (m : Memory), m.wf → 24 + 24 * j ≤ 2 ^ 32 → (writeFullGroups rd j m).wf := by
    intro j
    induction j with
    | zero => intro m hm _; exact hm
    | succ j ih =>
      intro m hm hj
      exact Memory.wf_writeRange (ih m hm (by omega)) (by simp only [groupPix]; omega) _
  have hf : fullBytes n = (n - 1) - (n - 1) % 3 := rfl
  have hh : (writeHeader n m).wf := Memory.wf_writeRange hm (by simp only [groupPix]; omega) _
  refine Memory.wf_writeRange ?_ (by omega) _
  rw [writePayload]
  split
  · exact hh
  · exact Memory.wf_writeRange (hg _ _ hh (by omega)) (by simp only [groupPix]; omega) _

/-- The three outcomes of ENCODE, each with its whole next state (R80). -/
theorem encodeWith_cases (pad : PadDraw) (s : State) :
    (16777216 ≤ s.srcLen.toNat ∧ encodeWith pad s = .next { s with status := 3#32 }) ∨
    (s.srcLen.toNat < 16777216 ∧ s.dstCap.toNat < 24 * (1 + (s.srcLen.toNat + 2) / 3) ∧
      encodeWith pad s = .next { s with status := 2#32 }) ∨
    (s.srcLen.toNat < 16777216 ∧ 24 * (1 + (s.srcLen.toNat + 2) / 3) ≤ s.dstCap.toNat ∧
      encodeWith pad s = .next { s with
        memD := encodeOutput s.readS pad s.srcLen.toNat (24 * (1 + (s.srcLen.toNat + 2) / 3)) s.dstCap.toNat s.memD
        draws := s.draws + drawsUsed s.srcLen.toNat
        rlen := BitVec.ofNat 32 (24 * (1 + (s.srcLen.toNat + 2) / 3))
        status := 0#32 }) := by
  unfold encodeWith
  rcases extendedSize_cases s.srcLen.toNat with ⟨hn, he⟩ | ⟨hn, he⟩ <;> rw [he]
  · exact .inl ⟨hn, rfl⟩
  · rcases Nat.lt_or_ge s.dstCap.toNat (24 * (1 + (s.srcLen.toNat + 2) / 3)) with hc | hc
    · refine .inr (.inl ⟨hn, hc, ?_⟩)
      simp only [if_pos hc]
      rfl
    · refine .inr (.inr ⟨hn, hc, ?_⟩)
      simp only [if_neg (Nat.not_lt.2 hc)]
      rfl

/-- The successful ENCODE with its next state under a name: what changes, and which byte every cell of `D` reads as. -/
theorem encodeWith_success (pad : PadDraw) (s : State) (hn : s.srcLen.toNat < 16777216)
    (hc : 24 * (1 + (s.srcLen.toNat + 2) / 3) ≤ s.dstCap.toNat) :
    ∃ t, encodeWith pad s = .next t ∧
      t = { s with
        memD := t.memD, draws := s.draws + drawsUsed s.srcLen.toNat
        rlen := BitVec.ofNat 32 (24 * (1 + (s.srcLen.toNat + 2) / 3)), status := 0#32 } ∧
      t.memD = encodeOutput s.readS pad s.srcLen.toNat (24 * (1 + (s.srcLen.toNat + 2) / 3)) s.dstCap.toNat s.memD ∧
      ∀ x, t.readD x =
        if x < 24 then channelOfBit (s.srcLen.toNat.testBit x)
        else if x < 24 * (1 + (s.srcLen.toNat + 2) / 3) then
          channelOfBit ((padded s.readS pad s.srcLen.toNat ((x - 24) / 8)).getLsbD ((x - 24) % 8))
        else if x < s.dstCap.toNat then 0#8
        else s.readD x := by
  rcases encodeWith_cases pad s with ⟨h, _⟩ | ⟨_, h, _⟩ | ⟨_, _, e⟩
  · omega
  · omega
  · refine ⟨_, e, rfl, rfl, fun x => ?_⟩
    simp only [State.readD, get?_encodeOutput _ _ hc]
    split
    · rfl
    · split
      · rfl
      · split <;> rfl

end Sys2Proof.Machine
end

