-- ==== Sys2Proof/Laws/Commands.lean ====
section
/-!
SUPPORT. Everything the other four commands can do, each with its whole next state.
-/

namespace Sys2Proof.Machine

/-- The two outcomes of EXTSIZE (R54). -/
theorem execExtsize_cases (s : State) :
    (16777216 ≤ s.srcLen.toNat ∧ execExtsize s = .next { s with status := 3#32 }) ∨
    (s.srcLen.toNat < 16777216 ∧
      execExtsize s = .next { s with
        rlen := BitVec.ofNat 32 (24 * (1 + (s.srcLen.toNat + 2) / 3)), status := 0#32 }) := by
  unfold execExtsize
  rcases extendedSize_cases s.srcLen.toNat with ⟨hn, he⟩ | ⟨hn, he⟩ <;> rw [he]
  · exact .inl ⟨hn, rfl⟩
  · exact .inr ⟨hn, rfl⟩

/-- The three outcomes of IMGSIZE under a rounding rule (R58). -/
theorem imgsizeWith_cases (rule : RowPadRule) (s : State) :
    ((s.rowPix.toNat = 0 ∨ 16777216 ≤ s.rowPix.toNat) ∧ imgsizeWith rule s = .next { s with status := 254#32 }) ∨
    (1 ≤ s.rowPix.toNat ∧ s.rowPix.toNat ≤ 16777215 ∧ 16777216 ≤ s.srcLen.toNat ∧
      imgsizeWith rule s = .next { s with status := 3#32 }) ∨
    (1 ≤ s.rowPix.toNat ∧ s.rowPix.toNat ≤ 16777215 ∧ s.srcLen.toNat < 16777216 ∧
      imgsizeWith rule s = .next { s with
        rlen := BitVec.ofNat 32 (padToRows rule (24 * (1 + (s.srcLen.toNat + 2) / 3)) (3 * s.rowPix.toNat))
        width := s.rowPix
        height := BitVec.ofNat 32
          (padToRows rule (24 * (1 + (s.srcLen.toNat + 2) / 3)) (3 * s.rowPix.toNat) / (3 * s.rowPix.toNat))
        status := 0#32 }) := by
  unfold imgsizeWith rowPixMax
  by_cases hw : s.rowPix.toNat = 0 ∨ 16777215 < s.rowPix.toNat
  · exact .inl ⟨by omega, by rw [if_pos hw]; rfl⟩
  · rw [if_neg hw]
    rcases extendedSize_cases s.srcLen.toNat with ⟨hn, he⟩ | ⟨hn, he⟩ <;> rw [he]
    · exact .inr (.inl ⟨by omega, by omega, hn, rfl⟩)
    · exact .inr (.inr ⟨by omega, by omega, hn, rfl⟩)

/-- The channel bytes do not depend on `STATUS` (R21). -/
theorem State.channel_setStatus (w : Word) (s : State) (k : Nat) : (s.setStatus w).channel k = s.channel k := rfl

/-- The one outcome of EXPAND (R64). -/
theorem execExpand_eq (s : State) :
    execExpand s = .next ((s.setPixels (pixelWord (expand3 (groupOfWord s.g)))).setStatus 0#32) := by
  rw [execExpand, State.finish, State.statusWord_ok]

/-- The one outcome of CONTRACT (R67). -/
theorem execContract_eq (s : State) :
    execContract s = .next { s with g := wordOfGroup (contract24 s.channel), status := 0#32 } := by
  rw [execContract, State.finish, State.statusWord_ok]
  generalize wordOfGroup (contract24 s.channel) = w
  rfl

/-- Channel byte `k` after EXPAND (R64): bit `k` of `G`. -/
theorem channel_of_expand (s : State) {k : Nat} (hk : k < 24) :
    ((s.setPixels (pixelWord (expand3 (groupOfWord s.g)))).setStatus 0#32).channel k =
      channelOfBit (s.g.getLsbD k) := by
  rw [State.channel_setStatus, channel_setPixels _ _ hk, expand3, byteAt_groupOfWord _ (by omega), getLsbD_lane,
    decide_eq_true (show k % 8 < 8 by omega), Bool.true_and, show 8 * (k / 8) + k % 8 = k by omega]

/-- Bit `k` of `G` after CONTRACT (R67): the thresholded channel byte `k`, and 0 in bits 31:24. -/
theorem getLsbD_of_contract (s : State) (k : Nat) :
    (wordOfGroup (contract24 s.channel)).getLsbD k = (decide (k < 24) && bitOfChannel (s.channel k)) := by
  rw [getLsbD_wordOfGroup]
  by_cases hk : k < 24
  · rw [decide_eq_true hk, Bool.true_and, Bool.true_and, getLsbD_byteAt_contract24 _ (by omega) (by omega),
      show 8 * (k / 8) + k % 8 = k by omega]
  · rw [decide_eq_false hk, Bool.false_and, Bool.false_and]

end Sys2Proof.Machine
end

