-- ==== Sys2Proof/Laws/HostPort.lean ====
section
/-!
SUPPORT. What each host move does, and when a register access reaches a slot.
-/

namespace Sys2Proof.Machine

/-- A slot is reached exactly by its index (R12). -/
theorem slotOfIndex_isSome (i : Nat) : (slotOfIndex i).isSome = decide (i < 16) := by
  by_cases h : i < 16
  · have : ∀ j < 16, (slotOfIndex j).isSome = true := by decide
    rw [this i h, decide_eq_true h]
  · rw [decide_eq_false h, slotOfIndex]
    · rfl
    all_goals omega

/-- The accesses that reach a slot are the aligned words inside the window (R22, R23). -/
theorem accessSlot_ok_iff (width : AccessWidth) (offset : Nat) :
    (∃ sl, accessSlot width offset = .ok sl) ↔ width = .word ∧ offset % 4 = 0 ∧ offset < 64 := by
  cases width
  · simp [accessSlot]
  · simp [accessSlot]
  · have h := slotOfIndex_isSome (offset / 4)
    by_cases h4 : offset % 4 = 0
    · cases hs : slotOfIndex (offset / 4) with
      | none =>
        rw [hs] at h
        have : ¬ offset / 4 < 16 := by simpa using h
        simp only [accessSlot, h4, hs, ne_eq, not_true_eq_false, if_false, true_and, reduceCtorEq, exists_false, false_iff]
        omega
      | some sl =>
        rw [hs] at h
        have : offset / 4 < 16 := by simpa using h
        simp only [accessSlot, h4, hs, ne_eq, not_true_eq_false, if_false, true_and, Except.ok.injEq, exists_eq', true_iff]
        omega
    · simp [accessSlot, h4]

/-- A step with no host move pending (R11). -/
theorem step_nil {s : State} (h : s.hostMoves = []) : step s = .next s := by
  simp [step, h]

/-- A step with a host move pending is that move (R39). -/
theorem step_cons {s : State} {mv : HostMove} {rest : List HostMove} (h : s.hostMoves = mv :: rest) :
    step s = hostMove mv { s with hostMoves := rest } := by
  simp only [step, h]
  rfl

/-- A command write (R13, R51). -/
theorem hostMove_command (w : Word) (s : State) : hostMove (commandMove w) s = issueCommand w s := rfl

/-- The command step of a legal word (R51). -/
theorem issueCommand_command {w : Word} {i : Instr} (h : decode w = .command i) (s : State) :
    issueCommand w s = exec i { s with cmd := w } := by
  simp only [issueCommand, h, State.backed_true, if_true]
  rfl

/-- The command step of an illegal word (R47). -/
theorem issueCommand_illegal {w : Word} {why : IllegalWord} (h : decode w = .illegal why) (s : State) :
    issueCommand w s = .next { s with cmd := w, status := 254#32 } := by
  simp only [issueCommand, h]
  rfl

end Sys2Proof.Machine
end

