-- ==== Sys2Proof/Laws/PerInstr.lean ====
section
/-!
SUPPORT. Families of statements made once per command.
-/

namespace Sys2Proof.Laws.CommandWord

/-- The command word of `i` (R44, R46): its two fields are the opcode and 0, and the command is well formed (R45). -/
def Statement (i : Instr) : Prop :=
  opcodeField (encode i) = (opcode i).toNat ∧ rsvField (encode i) = 0 ∧ i.wellFormed = true

theorem extsize : Statement .extsize := by unfold Statement; decide

theorem imgsize : Statement .imgsize := by unfold Statement; decide

theorem expand : Statement .expand := by unfold Statement; decide

theorem contract : Statement .contract := by unfold Statement; decide

theorem encode : Statement .encode := by unfold Statement; decide

theorem decode : Statement .decode := by unfold Statement; decide

end Sys2Proof.Laws.CommandWord
end

