-- ==== Sys2Proof/Tests/Slice0.lean ====
section
/-!
SUPPORT. The model's own tests: vectors of spec/95_test_vectors.md (V1 to V44, hand-computed there), words written out from
R44 and R46, ill-formed host moves, and one witness for the hypotheses of every statement.
-/

open Sys2Proof
open Sys2Proof.Machine
open Sys2Proof.Claim

namespace Sys2Proof.Tests

/-! ### Builders -/

/-- The next state, if there is one. -/
def nextOf : Result → Option State
  | .next s => some s
  | .fault _ => none
  | .refused _ => none

/-- The cells that hold the bytes from address 0 on. -/
def cellsFrom (base : Nat) : List Byte → Memory
  | [] => []
  | b :: l => (base, b) :: cellsFrom (base + 1) l

/-- Reset, then `S` filled from address 0 and the two length registers written. -/
def filled (bytes : List Byte) (srcLen dstCap : Word) : State :=
  { State.reset with memS := cellsFrom 0 bytes, srcLen := srcLen, dstCap := dstCap }

/-- Reset, then the two operands of IMGSIZE written. -/
def sized (srcLen rowPix : Word) : State := { State.reset with srcLen := srcLen, rowPix := rowPix }

/-- Reset, with one move of the host pending. -/
def pending (mv : HostMove) : State := { State.reset with hostMoves := [mv] }

/-- Eight zero channel bytes. -/
def z8 : List Byte := List.replicate 8 0x00#8

/-- The pixel buffer of V20, with both pad bytes 0: payload 41 42. -/
def v20 : List Byte :=
  [0x00#8, 0xFF#8, 0x00#8, 0x00#8, 0x00#8, 0x00#8, 0x00#8, 0x00#8] ++ z8 ++ z8 ++
  [0xFF#8, 0x00#8, 0x00#8, 0x00#8, 0x00#8, 0x00#8, 0xFF#8, 0x00#8] ++
  [0x00#8, 0xFF#8, 0x00#8, 0x00#8, 0x00#8, 0x00#8, 0xFF#8, 0x00#8] ++ z8

/-- The pixel buffer of V24, with the pad bytes A5 and 3C: payload DE AD BE EF, capacity 75. -/
def v24 : List Byte :=
  [0x00#8, 0x00#8, 0xFF#8, 0x00#8, 0x00#8, 0x00#8, 0x00#8, 0x00#8] ++ z8 ++ z8 ++
  [0x00#8, 0xFF#8, 0xFF#8, 0xFF#8, 0xFF#8, 0x00#8, 0xFF#8, 0xFF#8] ++
  [0xFF#8, 0x00#8, 0xFF#8, 0xFF#8, 0x00#8, 0xFF#8, 0x00#8, 0xFF#8] ++
  [0x00#8, 0xFF#8, 0xFF#8, 0xFF#8, 0xFF#8, 0xFF#8, 0x00#8, 0xFF#8] ++
  [0xFF#8, 0xFF#8, 0xFF#8, 0xFF#8, 0x00#8, 0xFF#8, 0xFF#8, 0xFF#8] ++
  [0xFF#8, 0x00#8, 0xFF#8, 0x00#8, 0x00#8, 0xFF#8, 0x00#8, 0xFF#8] ++
  [0x00#8, 0x00#8, 0xFF#8, 0xFF#8, 0xFF#8, 0xFF#8, 0x00#8, 0x00#8] ++ [0x00#8, 0x00#8, 0x00#8]

/-- The pixel buffer of V32: arbitrary channel values that declare length 1 and hold A5. -/
def v32 : List Byte :=
  [0x80#8, 0x7F#8, 0x10#8, 0x00#8, 0x7F#8, 0x01#8, 0x40#8, 0x7E#8] ++ List.replicate 16 0x33#8 ++
  [0xC8#8, 0x03#8, 0x81#8, 0x7F#8, 0x00#8, 0xFF#8, 0x64#8, 0x80#8] ++ List.replicate 8 0xFF#8 ++
  List.replicate 8 0x80#8 ++ [0x12#8, 0xF3#8]

/-- The state V20 encodes. -/
def v20State : State := filled [0x41#8, 0x42#8] 2#32 48#32

/-- A copy of V20's output as a source buffer, with room for the payload. -/
def v28State : State := filled v20 48#32 2#32

/-! ### The decoder: words written out from R44 and R46 -/

theorem test_decode_extsize : decode 0b00000000000000000000000000000001#32 = .command .extsize := by decide

theorem test_decode_imgsize : decode 0b00000000000000000000000000000010#32 = .command .imgsize := by decide

theorem test_decode_expand : decode 0b00000000000000000000000000000011#32 = .command .expand := by decide

theorem test_decode_contract : decode 0b00000000000000000000000000000100#32 = .command .contract := by decide

theorem test_decode_encode : decode 0b00000000000000000000000000000101#32 = .command .encode := by decide

theorem test_decode_decode : decode 0b00000000000000000000000000000110#32 = .command .decode := by decide

/-- V40 to V40c: unassigned opcodes. -/
theorem test_decode_unknown_opcode :
    decode 0x00000000#32 = .illegal .unknownOpcode ∧ decode 0x00000007#32 = .illegal .unknownOpcode ∧
    decode 0x000000FF#32 = .illegal .unknownOpcode := by decide

/-- V40d to V40f: reserved bits set. -/
theorem test_decode_reserved_bits :
    decode 0x00000105#32 = .illegal .reservedBits ∧ decode 0x80000001#32 = .illegal .reservedBits ∧
    decode 0xFFFFFFFF#32 = .illegal .reservedBits := by decide

/-- Log 9: the word of a table row, and numbers that are no command word. -/
theorem test_decodeTableWord :
    decodeTableWord 32 0x05 = some .encode ∧ decodeTableWord 8 0x106 = some .decode ∧
    decodeTableWord 32 0x105 = none ∧ decodeTableWord 40 0x100000005 = none := by decide

/-! ### WellFormed: a term each check refuses, and one it accepts -/

theorem test_wellFormed_refuses_narrow :
    HostMove.wellFormed (.writeReg .byte 0x08 0#32) = false ∧ HostMove.wellFormed (.readReg .half 0x08) = false := by decide

theorem test_wellFormed_refuses_misaligned :
    HostMove.wellFormed (.writeReg .word 0x09 0#32) = false ∧ HostMove.wellFormed (.readReg .word 0x02) = false := by decide

theorem test_wellFormed_refuses_outside :
    HostMove.wellFormed (.writeReg .word 0x40 0#32) = false ∧ HostMove.wellFormed (.readReg .word 0x40) = false := by decide

theorem test_wellFormed_accepts :
    HostMove.wellFormed (.writeReg .word 0x3C 0#32) = true ∧ HostMove.wellFormed (.readReg .word 0x00) = true := by decide

/-- R45: a command has no operand to be ill-formed in. -/
theorem test_wellFormed_commands : Instr.wellFormed .extsize = true ∧ Instr.wellFormed .decode = true := by decide

/-! ### EXTSIZE (V4, V6) -/

theorem test_extsize_256 :
    (nextOf (exec .extsize (filled [] 256#32 0#32))).map (fun t => (t.status, t.rlen)) = some (0#32, 2088#32) := by decide

theorem test_extsize_tooLarge :
    (nextOf (exec .extsize { filled [] 0x01000000#32 0#32 with rlen := 7#32 })).map (fun t => (t.status, t.rlen)) =
      some (3#32, 7#32) := by decide

/-! ### IMGSIZE (V11, V12c) -/

theorem test_imgsize_largest :
    (nextOf (exec .imgsize (sized 16777215#32 16777215#32))).map (fun t => (t.status, t.rlen, t.width, t.height)) =
      some (0#32, 150994935#32, 16777215#32, 3#32) := by decide

theorem test_imgsize_rowPix_first :
    (nextOf (exec .imgsize (sized 16777216#32 0#32))).map (fun t => (t.status, t.rlen, t.width, t.height)) =
      some (254#32, 0#32, 0#32, 0#32) := by decide

/-! ### EXPAND (V16, V16b) -/

theorem test_expand_C35AA5 :
    (nextOf (exec .expand { State.reset with g := 0x00C35AA5#32 })).map
      (fun t => (t.p0, t.p1, t.p2, t.p3, t.p4, t.p5)) =
      some (0x00FF00FF#32, 0xFF00FF00#32, 0xFF00FF00#32, 0x00FF00FF#32, 0x0000FFFF#32, 0xFFFF0000#32) := by decide

theorem test_expand_ignores_top_byte :
    (nextOf (exec .expand { State.reset with g := 0x12345678#32 })).map
      (fun t => (t.p0, t.p1, t.p2, t.p3, t.p4, t.p5)) =
      some (0xFF000000#32, 0x00FFFFFF#32, 0x00FFFF00#32, 0x00FF00FF#32, 0x00FF0000#32, 0x0000FFFF#32) := by decide

/-! ### CONTRACT (V18, V19b) -/

theorem test_contract_perturbed :
    (nextOf (exec .contract { State.reset with
      g := 0xFFFFFFFF#32, p0 := 0x7F807F80#32, p1 := 0x807F807F#32, p2 := 0x807F807F#32
      p3 := 0x7F807F80#32, p4 := 0x7F7F8080#32, p5 := 0x80807F7F#32 })).map (fun t => (t.status, t.g)) =
      some (0#32, 0x00C35AA5#32) := by decide

theorem test_contract_msb_only :
    (nextOf (exec .contract { State.reset with
      g := 0xFFFFFFFF#32, p0 := 0x01020408#32, p1 := 0x10204080#32, p2 := 0x81C0E0F0#32
      p3 := 0x7E7D7B77#32, p4 := 0x80000000#32, p5 := 0x00000080#32 })).map (fun t => (t.status, t.g)) =
      some (0#32, 0x00180F10#32) := by decide

/-! ### ENCODE (V20, V24) -/

theorem test_encode_v20 :
    (nextOf (encodeWith ⟨0x00#8, 0x00#8⟩ v20State)).map (fun t => (t.status, t.rlen, t.memD)) =
      some (0#32, 48#32, cellsFrom 0 v20) := by decide

theorem test_encode_v24 :
    (nextOf (encodeWith ⟨0xA5#8, 0x3C#8⟩ (filled [0xDE#8, 0xAD#8, 0xBE#8, 0xEF#8] 4#32 75#32))).map
      (fun t => (t.status, t.rlen, t.memD)) = some (0#32, 72#32, cellsFrom 0 v24) := by decide

/-! ### DECODE (V32, V37) -/

theorem test_decode_v32 :
    (nextOf (exec .decode { filled v32 50#32 1#32 with memD := cellsFrom 0 [0xEE#8, 0xEE#8] })).map
      (fun t => (t.status, t.rlen, t.memD)) = some (0#32, 1#32, cellsFrom 0 [0xA5#8, 0xEE#8]) := by decide

theorem test_decode_v37 :
    (nextOf (exec .decode (filled v24 75#32 4#32))).map (fun t => (t.status, t.rlen, t.memD)) =
      some (0#32, 4#32, cellsFrom 0 [0xDE#8, 0xAD#8, 0xBE#8, 0xEF#8]) := by decide

/-! ### The host (V40d, V43) and the memories -/

/-- V40d through a step: `CMD` and `STATUS` change. -/
theorem test_step_illegal_word :
    (nextOf (step (pending (commandMove 0x00000105#32)))).map (fun t => (t.cmd, t.status, t.hostMoves)) =
      some (0x00000105#32, 254#32, []) := by decide

/-- V43: a write to a read-only register is ignored. -/
theorem test_step_readOnly :
    nextOf (step (pending (.writeReg .word 0x14 0x55#32))) = some State.reset := by decide

/-- A table word placed for the next step runs there. -/
theorem test_withFetchWord :
    (nextOf (step (State.reset.withFetchWord 32 1))).map (fun t => (t.cmd, t.status, t.rlen)) =
      some (1#32, 0#32, 24#32) := by decide

theorem test_memory_write_keeps_order :
    Memory.write (Memory.write (Memory.write [] 7 0x01#8) 3 0x02#8) 7 0x03#8 = [(3, 0x02#8), (7, 0x03#8)] := by decide

theorem test_reset_memories_canonical : State.reset.memS.wf ∧ State.reset.memD.wf := by decide

/-! ### Witnesses: a state and operands that meet the hypotheses of each statement -/

theorem witness_EncodedCommandDecodesToItself : Instr.wellFormed .encode = true := by decide

theorem witness_StepRunsTheDecodedCommand :
    (pending (commandMove 0x00000006#32)).hostMoves = commandMove 0x00000006#32 :: [] ∧
    decode 0x00000006#32 = .command .decode ∧ Instr.wellFormed .decode = true := by decide

theorem witness_IllegalWordSetsStatus254AndNothingElse :
    (∀ i, 0x00000007#32 ≠ matchWord i) ∧ (∀ i, 0x00000000#32 ≠ matchWord i) ∧
    (0x00000105#32).extractLsb' 8 24 ≠ 0#24 ∧
    (0x00#8 = 0x00#8 ∨ 0x07#8 ≤ 0x00#8) ∧ (0x07#8 = 0x00#8 ∨ 0x07#8 ≤ 0x07#8) ∧
    (0xFF#8 = 0x00#8 ∨ 0x07#8 ≤ 0xFF#8) :=
  ⟨fun i => by cases i <;> decide, fun i => by cases i <;> decide, by decide, by decide, by decide, by decide⟩

theorem witness_IdleEngineChangesNothing : State.reset.hostMoves = [] := by decide

theorem witness_ExtendedSizeClosedForm :
    16777215 < 16777216 ∧ 16777216 ≤ 16777216 ∧
    extendedSize 16777215 = .ok 134217744 ∧ (extendedSize 0 = .ok 24 ∧ extendedSize 16777215 = .ok 134217744 ∧ 0 ≤ 16777215) ∧
    (extendedSize 16777212 = .ok 134217720 ∧ extendedSize (16777212 + 3) = .ok 134217744) :=
  ⟨by decide, by decide, rfl, ⟨rfl, rfl, by decide⟩, rfl, rfl⟩

theorem witness_ExtendedSizePreimages : 24 ≤ 24 ∧ 24 ≤ 134217744 := by decide

theorem witness_ExtsizeWritesTheUsedLength :
    (filled [] 16777215#32 0#32).srcLen.toNat < 16777216 ∧ 16777216 ≤ (filled [] 16777216#32 0#32).srcLen.toNat := by decide

/-- Each clause at its boundary. -/
theorem witness_ImgsizeWritesRowsAndShape :
    (1 ≤ (sized 16777215#32 1#32).rowPix.toNat ∧ (sized 16777215#32 1#32).rowPix.toNat ≤ 16777215 ∧
      (sized 16777215#32 1#32).srcLen.toNat < 16777216) ∧
    (1 ≤ (sized 0#32 16777215#32).rowPix.toNat ∧ (sized 0#32 16777215#32).rowPix.toNat ≤ 16777215 ∧
      (sized 0#32 16777215#32).srcLen.toNat < 16777216) ∧
    ((sized 0#32 0#32).rowPix.toNat = 0 ∨ 16777216 ≤ (sized 0#32 0#32).rowPix.toNat) ∧
    ((sized 0#32 16777216#32).rowPix.toNat = 0 ∨ 16777216 ≤ (sized 0#32 16777216#32).rowPix.toNat) ∧
    (1 ≤ (sized 16777216#32 1#32).rowPix.toNat ∧ (sized 16777216#32 1#32).rowPix.toNat ≤ 16777215 ∧
      16777216 ≤ (sized 16777216#32 1#32).srcLen.toNat) := by decide

theorem witness_RowPaddingUnderEitherReading :
    1 ≤ (sized 16777215#32 16777215#32).rowPix.toNat ∧ (sized 16777215#32 16777215#32).rowPix.toNat ≤ 16777215 ∧
    (sized 16777215#32 16777215#32).srcLen.toNat < 16777216 := by decide

/-- V9c: the buffer has 24 channel bytes, the last at address 23. -/
theorem witness_ImageInterpretationCoversTheBuffer :
    (1 ≤ (sized 0#32 1#32).rowPix.toNat ∧ (sized 0#32 1#32).rowPix.toNat ≤ 16777215 ∧
      (sized 0#32 1#32).srcLen.toNat < 16777216) ∧
    (nextOf (exec .imgsize (sized 0#32 1#32))).map (fun t : State => decide (23 < t.rlen.toNat)) = some true := by decide

theorem witness_ExpandTurnsBitsIntoChannelBytes : 2 < 3 ∧ 7 < 8 := by decide

theorem witness_ExpandIsInjectiveAndBitwise :
    (∀ k < 24, expand3 ⟨0x41#8, 0x42#8, 0x80#8⟩ k = expand3 ⟨0x41#8, 0x42#8, 0x80#8⟩ k) ∧
    23 < 24 ∧ (headerLen ⟨0x00#8, 0x00#8, 0x80#8⟩).testBit 23 = (headerLen ⟨0x01#8, 0x00#8, 0xFF#8⟩).testBit 23 := by decide

theorem witness_ExpandWritesThePixelRegisters : 23 < 24 := by decide

theorem witness_ContractThresholdsAt128 :
    2 < 3 ∧ 7 < 8 ∧ ((fun _ : Nat => 127#8) (2 * 8 + 7) = 0#8 ∨ (fun _ : Nat => 127#8) (2 * 8 + 7) = 127#8) ∧
    ((fun _ : Nat => 128#8) (2 * 8 + 7) = 128#8 ∨ (fun _ : Nat => 128#8) (2 * 8 + 7) = 255#8) := by decide

theorem witness_ContractWritesTheGroupRegister : 23 < 24 := by decide

theorem witness_ContractUndoesExpand : 23 < 24 ∧ ∀ k < 24, (fun j : Nat => if j = 0 then 255#8 else 0#8) k = 0#8 ∨
    (fun j : Nat => if j = 0 then 255#8 else 0#8) k = 255#8 := by decide

theorem witness_ExpandThenContractClearsOnlyTheTopByte : 23 < 24 := by decide

theorem witness_LengthHeaderRoundTrip : 16777215 < 16777216 := by decide

/-- The least and the greatest payload, each with exactly the capacity it needs. -/
theorem witness_encodeFits :
    encodeFits (filled [] 0#32 24#32) ∧ encodeFits (filled [] 16777215#32 134217744#32) ∧ encodeFits v20State := by
  unfold encodeFits
  decide

/-- Each clause at its boundary: V25, V22, V21. -/
theorem witness_EncodeChecksInOrder :
    16777216 ≤ (filled [] 16777216#32 0#32).srcLen.toNat ∧
    ((filled [] 0#32 23#32).srcLen.toNat < 16777216 ∧
      (filled [] 0#32 23#32).dstCap.toNat < usedLen (filled [] 0#32 23#32).srcLen.toNat) ∧
    ((filled [] 0#32 24#32).srcLen.toNat < 16777216 ∧
      usedLen (filled [] 0#32 24#32).srcLen.toNat ≤ (filled [] 0#32 24#32).dstCap.toNat) := by decide

theorem witness_EncodeWritesTheLengthHeader : encodeFits (filled [] 0#32 24#32) ∧ 23 < 24 :=
  ⟨witness_encodeFits.1, by decide⟩

/-- V24: one full group. -/
theorem witness_EncodeExpandsTheFullGroups :
    encodeFits (filled [0xDE#8, 0xAD#8, 0xBE#8, 0xEF#8] 4#32 75#32) ∧
    1 ≤ (filled [0xDE#8, 0xAD#8, 0xBE#8, 0xEF#8] 4#32 75#32).srcLen.toNat ∧
    3 = ((filled [0xDE#8, 0xAD#8, 0xBE#8, 0xEF#8] 4#32 75#32).srcLen.toNat - 1) -
      ((filled [0xDE#8, 0xAD#8, 0xBE#8, 0xEF#8] 4#32 75#32).srcLen.toNat - 1) % 3 ∧ 0 < 3 / 3 ∧ 23 < 24 := by
  unfold encodeFits
  decide

/-- V26b, V20 and V23: the three remainders. -/
theorem witness_EncodeCompletesTheLastGroup :
    (encodeFits (filled [0x55#8] 1#32 48#32) ∧ 1 ≤ (filled [0x55#8] 1#32 48#32).srcLen.toNat ∧
      0 = ((filled [0x55#8] 1#32 48#32).srcLen.toNat - 1) - ((filled [0x55#8] 1#32 48#32).srcLen.toNat - 1) % 3) ∧
    (encodeFits v20State ∧ 1 ≤ v20State.srcLen.toNat ∧
      0 = (v20State.srcLen.toNat - 1) - (v20State.srcLen.toNat - 1) % 3) ∧
    (encodeFits (filled [0x01#8, 0x80#8, 0xFF#8] 3#32 48#32) ∧
      1 ≤ (filled [0x01#8, 0x80#8, 0xFF#8] 3#32 48#32).srcLen.toNat ∧
      0 = ((filled [0x01#8, 0x80#8, 0xFF#8] 3#32 48#32).srcLen.toNat - 1) -
        ((filled [0x01#8, 0x80#8, 0xFF#8] 3#32 48#32).srcLen.toNat - 1) % 3) := by
  unfold encodeFits
  decide

theorem witness_EncodeOfTheEmptyPayloadWritesZeros :
    (filled [] 0#32 24#32).srcLen = 0#32 ∧ 24 ≤ (filled [] 0#32 24#32).dstCap.toNat := by decide

/-- V24: the zero-filled cells 72 to 74, and cell 75 beyond the capacity. -/
theorem witness_EncodeZeroFillsToTheCapacity :
    encodeFits (filled [0xDE#8, 0xAD#8, 0xBE#8, 0xEF#8] 4#32 75#32) ∧
    (usedLen (filled [] 4#32 75#32).srcLen.toNat ≤ 72 ∧ 74 < (filled [] 4#32 75#32).dstCap.toNat) ∧
    (filled [] 4#32 75#32).dstCap.toNat ≤ 75 :=
  ⟨witness_EncodeExpandsTheFullGroups.1, by decide, by decide⟩

theorem witness_EncodeChangesOnlyItsResults : encodeFits v20State ∧ v20State.dstCap.toNat ≤ 48 :=
  ⟨witness_encodeFits.2.2, by decide⟩

theorem witness_EncodeOutputIsTheBitStream :
    encodeFits (filled [] 4#32 75#32) ∧ 71 < usedLen (filled [] 4#32 75#32).srcLen.toNat ∧
    (usedLen (filled [] 4#32 75#32).srcLen.toNat ≤ 72 ∧ 72 < (filled [] 4#32 75#32).dstCap.toNat) := by
  unfold encodeFits
  decide

theorem witness_EncodedBytesAreZeroOr255 : encodeFits v20State ∧ 47 < v20State.dstCap.toNat :=
  ⟨witness_encodeFits.2.2, by decide⟩

/-- `S[2]` differs, `S[0]` and `S[1]` do not. -/
theorem witness_EncodeReadsOnlyThePayload :
    ∀ a, a < v20State.srcLen.toNat →
      ({ v20State with memS := cellsFrom 0 [0x41#8, 0x42#8, 0x99#8] } : State).readS a = v20State.readS a := by decide

/-- Both remainders at both ends of the pad cells, and the cells beside them. -/
theorem witness_PadDrawReachesOnlyThePadCells :
    encodeFits v20State ∧ padCell 2 40 ∧ padCell 2 47 ∧ ¬ padCell 2 39 ∧ ¬ padCell 2 48 ∧
    padCell 1 32 ∧ padCell 1 47 ∧ ¬ padCell 1 31 ∧ v20State.srcLen.toNat % 3 = 2 := by
  unfold encodeFits padCell
  decide

theorem witness_DecodeReadsTheLengthHeader : 23 < 24 := by decide

/-- Each clause at its boundary: V29, V32c, V38 and V28. -/
theorem witness_DecodeChecksInOrder :
    (declares (filled (z8 ++ z8 ++ z8) 24#32 100#32) 0 ∧ (filled (z8 ++ z8 ++ z8) 24#32 100#32).srcLen.toNat < 25) ∧
    (declares (filled v32 47#32 1#32) 1 ∧ 25 ≤ (filled v32 47#32 1#32).srcLen.toNat ∧
      (filled v32 47#32 1#32).srcLen.toNat < usedLen 1) ∧
    (declares (filled v32 48#32 0#32) 1 ∧ 25 ≤ (filled v32 48#32 0#32).srcLen.toNat ∧
      usedLen 1 ≤ (filled v32 48#32 0#32).srcLen.toNat ∧ (filled v32 48#32 0#32).dstCap.toNat < 1) ∧
    (declares v28State 2 ∧ 25 ≤ v28State.srcLen.toNat ∧ usedLen 2 ≤ v28State.srcLen.toNat ∧
      2 ≤ v28State.dstCap.toNat) := by
  unfold declares
  decide

/-- V28, and V30 with the empty payload. -/
theorem witness_decodeFits :
    decodeFits v28State 2 ∧ decodeFits (filled (z8 ++ z8 ++ z8 ++ [0xFF#8]) 25#32 0#32) 0 := by
  unfold decodeFits declares
  decide

theorem witness_DecodeWritesThePayloadAndNothingElse : decodeFits v28State 2 ∧ (1 < 3 ∧ 3 * 0 + 1 < 2) ∧ 2 ≤ 2 :=
  ⟨witness_decodeFits.1, by decide, by decide⟩

theorem witness_DecodedBitIsTheChannelMsb : decodeFits v28State 2 ∧ 1 < 2 ∧ 7 < 8 :=
  ⟨witness_decodeFits.1, by decide, by decide⟩

/-- Two different buffers of different lengths with the same declared bits: V28 and V28c. -/
theorem witness_DecodeDependsOnlyOnTheDeclaredBits :
    declares v28State 2 ∧
    (∀ a, a < 24 + 8 * 2 → (v28State.readS a).getLsbD 7 =
      ((filled (v20 ++ List.replicate 12 0xFF#8) 60#32 2#32).readS a).getLsbD 7) ∧
    max 25 (usedLen 2) ≤ v28State.srcLen.toNat ∧
    max 25 (usedLen 2) ≤ (filled (v20 ++ List.replicate 12 0xFF#8) 60#32 2#32).srcLen.toNat ∧
    v28State.dstCap = (filled (v20 ++ List.replicate 12 0xFF#8) 60#32 2#32).dstCap := by
  unfold declares
  decide

/-- V28: the copy of V20's output, at least 25 bytes long. -/
theorem witness_EncodeThenDecodeRoundTrip :
    encodeFits v20State ∧ 1 ≤ v20State.srcLen.toNat ∧ v28State.srcLen = v20State.dstCap ∧
    (nextOf (encodeWith ⟨0x00#8, 0x00#8⟩ v20State)).map
      (fun t : State => decide (∀ a, a < v20State.dstCap.toNat → v28State.readS a = t.readD a)) = some true ∧
    v20State.srcLen.toNat ≤ v28State.dstCap.toNat ∧ 25 ≤ v20State.dstCap.toNat := by
  unfold encodeFits
  decide

/-- V29: the empty payload at the one capacity below 25. -/
theorem witness_EncodeThenDecodeRoundTrip_24 :
    encodeFits (filled [] 0#32 24#32) ∧ (filled (z8 ++ z8 ++ z8) 24#32 0#32).srcLen = (filled [] 0#32 24#32).dstCap ∧
    (nextOf (encodeWith ⟨0x00#8, 0x00#8⟩ (filled [] 0#32 24#32))).map
      (fun t : State => decide (∀ a : Nat, a < 24 → (filled (z8 ++ z8 ++ z8) 24#32 0#32).readS a = t.readD a)) = some true ∧
    (filled [] 0#32 24#32).srcLen.toNat ≤ (filled (z8 ++ z8 ++ z8) 24#32 0#32).dstCap.toNat ∧
    (filled [] 0#32 24#32).dstCap.toNat < 25 := by
  unfold encodeFits
  decide

/-- V28b: every FF replaced by 80 and every 00 by 7F. -/
theorem witness_DecodeToleratesPerturbedChannels :
    encodeFits v20State ∧ v28State.srcLen = v20State.dstCap ∧
    (filled (v20.map fun c => if c = 0xFF#8 then 0x80#8 else 0x7F#8) 48#32 2#32).srcLen = v20State.dstCap ∧
    (nextOf (encodeWith ⟨0x00#8, 0x00#8⟩ v20State)).map
      (fun t : State => decide (∀ a : Nat, a < 48 → v28State.readS a = t.readD a ∧
        (t.readD a = 255#8 →
          128 ≤ ((filled (v20.map fun c => if c = 0xFF#8 then 0x80#8 else 0x7F#8) 48#32 2#32).readS a).toNat) ∧
        (t.readD a = 0#8 →
          ((filled (v20.map fun c => if c = 0xFF#8 then 0x80#8 else 0x7F#8) 48#32 2#32).readS a).toNat ≤ 127))) =
      some true := by
  unfold encodeFits
  decide

/-- V9b for the 24-byte buffer, with a state that holds it as its source; V9 for the first width beyond. -/
theorem witness_EmptyPayloadRowWidthHazard :
    ((sized 0#32 8#32).srcLen = 0#32 ∧ 1 ≤ (sized 0#32 8#32).rowPix.toNat ∧ (sized 0#32 8#32).rowPix.toNat ≤ 16777215 ∧
      (nextOf (exec .imgsize (sized 0#32 8#32))).map
        (fun t : State => decide ((filled (z8 ++ z8 ++ z8) 24#32 0#32).srcLen = t.rlen ∧ t.rlen.toNat = 24)) = some true) ∧
    ((sized 0#32 1#32).srcLen = 0#32 ∧ 1 ≤ (sized 0#32 1#32).rowPix.toNat ∧ (sized 0#32 1#32).rowPix.toNat ≤ 16777215) ∧
    ((sized 0#32 9#32).srcLen = 0#32 ∧ 1 ≤ (sized 0#32 9#32).rowPix.toNat ∧ (sized 0#32 9#32).rowPix.toNat ≤ 16777215) ∧
    (sized 0#32 16777215#32).rowPix.toNat ≤ 16777215 := by decide

/-- A command that fails: IMGSIZE after reset (R120). -/
theorem witness_FailedCommandChangesOnlyCmdAndStatus :
    (nextOf (issueCommand 2#32 State.reset)).map (fun t : State => decide (t.status ≠ 0#32)) = some true := by decide

theorem witness_EachCommandRaisesItsKindsInOrder : declares v28State 2 := witness_decodeFits.1.1

theorem witness_StatusHoldsOnlyLegalCodes :
    (∃ t, exec .imgsize State.reset = .next t) ∧
    (pending (commandMove 0xFFFFFFFF#32)).hostMoves = commandMove 0xFFFFFFFF#32 :: [] ∧
    ∃ t, step (pending (commandMove 0xFFFFFFFF#32)) = .next t :=
  ⟨⟨_, rfl⟩, rfl, _, rfl⟩

/-- The last slot of the window is answered, the first offset beyond it is not. -/
theorem witness_EveryInterfaceMoveIsAnswered :
    (∀ mv rest, (pending (.readReg .word 0x3C)).hostMoves = mv :: rest → mv.wellFormed = true) ∧
    (pending (.readReg .word 0x40)).hostMoves = .readReg .word 0x40 :: [] ∧
    HostMove.wellFormed (.readReg .word 0x40) = false :=
  ⟨fun _ _ h => by cases h; decide, rfl, by decide⟩

/-- V20 and V28: the first cell beyond the capacity and beyond the declared length; V22: a command that fails. -/
theorem witness_CommandsWriteOnlyTheirTableRow :
    v20State.dstCap.toNat ≤ 48 ∧ (declares v28State 2 ∧ 2 ≤ 2) ∧
    (nextOf (exec .encode (filled [] 0#32 23#32))).map (fun t : State => decide (t.status ≠ 0#32)) = some true :=
  ⟨by decide, ⟨witness_decodeFits.1.1, by decide⟩, by decide⟩

theorem witness_BufferCommandsIgnoreTheGroupRegisters :
    (Instr.encode = .encode ∨ Instr.encode = .decode) ∧ (Instr.decode = .encode ∨ Instr.decode = .decode) := by decide

/-- An ENCODE with a complete last group, and a command that is not ENCODE. -/
theorem witness_ReissuedCommandReproducesTheState :
    ((filled [0x01#8, 0x80#8, 0xFF#8] 3#32 48#32).memoriesCanonical ∧
      (Instr.encode = .encode → (filled [0x01#8, 0x80#8, 0xFF#8] 3#32 48#32).srcLen.toNat % 3 = 0)) ∧
    (v28State.memoriesCanonical ∧ (Instr.decode = .encode → v28State.srcLen.toNat % 3 = 0)) := by
  unfold State.memoriesCanonical
  decide

/-- A writable slot, a read-only slot and the reserved slot. -/
theorem witness_HostRegisterWrite :
    ((pending (.writeReg .word 0x38 0x55#32)).hostMoves = .writeReg .word 0x38 0x55#32 :: [] ∧
      accessSlot .word 0x38 = .ok .p5 ∧ Slot.p5 ≠ .cmd) ∧
    ((pending (.writeReg .word 0x04 0x55#32)).hostMoves = .writeReg .word 0x04 0x55#32 :: [] ∧
      accessSlot .word 0x04 = .ok .status ∧ Slot.status ≠ .cmd) ∧
    ((pending (.writeReg .word 0x3C 0x55#32)).hostMoves = .writeReg .word 0x3C 0x55#32 :: [] ∧
      accessSlot .word 0x3C = .ok .reserved ∧ Slot.reserved ≠ .cmd) :=
  ⟨⟨rfl, rfl, by decide⟩, ⟨rfl, rfl, by decide⟩, rfl, rfl, by decide⟩

theorem witness_HostRegisterRead :
    (pending (.readReg .word 0x00)).hostMoves = .readReg .word 0x00 :: [] ∧ accessSlot .word 0x00 = .ok .cmd :=
  ⟨rfl, rfl⟩

/-- Each of the three problems, for a write and for a read. -/
theorem witness_AccessOutsideTheInterfaceIsRefused :
    (AccessWidth.half ≠ .word ∨ 0x08 % 4 ≠ 0 ∨ 64 ≤ 0x08) ∧
    (AccessWidth.word ≠ .word ∨ 0x3F % 4 ≠ 0 ∨ 64 ≤ 0x3F) ∧
    (AccessWidth.word ≠ .word ∨ 0x40 % 4 ≠ 0 ∨ 64 ≤ 0x40) ∧
    (pending (.writeReg .word 0x40 1#32)).hostMoves = .writeReg .word 0x40 1#32 :: [] ∧
    (pending (.readReg .half 0x08)).hostMoves = .readReg .half 0x08 :: [] := by decide

/-- The top cell of each space. -/
theorem witness_HostByteWriteThenRead :
    (pending (.writeByte .src 0xFFFFFFFF#32 0x5A#8)).hostMoves = .writeByte .src 0xFFFFFFFF#32 0x5A#8 :: [] ∧
    (pending (.writeByte .dst 0xFFFFFFFF#32 0x5A#8)).hostMoves = .writeByte .dst 0xFFFFFFFF#32 0x5A#8 :: [] ∧
    (pending (.readByte .src 0x00000000#32)).hostMoves = .readByte .src 0x00000000#32 :: [] ∧
    (pending (.readByte .dst 0xFFFFFFFF#32)).hostMoves = .readByte .dst 0xFFFFFFFF#32 :: [] := by decide

theorem witness_ResetMoveClearsTheRegisters :
    ({ v28State with hostMoves := [.reset] } : State).hostMoves = .reset :: [] := by decide

/-- A state in the middle of a session, with a host byte write to the top of `D` pending. -/
theorem witness_StepKeepsTheInvariant :
    State.Inv { v28State with status := 254#32, hostMoves := [.writeByte .dst 0xFFFFFFFF#32 0x01#8] } ∧
    ∃ t, step { v28State with status := 254#32, hostMoves := [.writeByte .dst 0xFFFFFFFF#32 0x01#8] } = .next t :=
  ⟨⟨by unfold State.statusLegal; decide, by unfold State.resultsBounded; decide,
    by unfold State.memoriesCanonical; decide⟩, _, rfl⟩

end Sys2Proof.Tests
end

section
/-!
The state family: the frame of the six commands (R24), the command step (R13, R51) and the state after reset (R28).
-/

namespace Sys2Proof.Machine

open Sys2Proof.Claim

/-! ### What a command can do to the state -/

/-- The shape of the next state of each command: the columns "writes" and "on an error" of the table of R24. -/
inductive CommandEffect (s : State) : Instr → State → Prop where
  /-- A failing command writes `STATUS` (R106). -/
  | fails (i : Instr) (k : ErrorKind) : CommandEffect s i { s with status := statusWord k.code }
  /-- EXTSIZE writes `RLEN` (R54). -/
  | extsize (len : Word) : CommandEffect s .extsize { s with rlen := len, status := 0#32 }
  /-- IMGSIZE writes `RLEN`, `WIDTH` and `HEIGHT` (R58). -/
  | imgsize (len w h : Word) :
    CommandEffect s .imgsize { s with rlen := len, width := w, height := h, status := 0#32 }
  /-- EXPAND writes `P0`..`P5` (R64). -/
  | expand (f : Nat → Word) : CommandEffect s .expand ((s.setPixels f).setStatus 0#32)
  /-- CONTRACT writes `G` (R67). -/
  | contract (w : Word) : CommandEffect s .contract { s with g := w, status := 0#32 }
  /-- ENCODE writes `RLEN` and `D` below the capacity, and moves the draw counter (R79, log 3). -/
  | encode (m : Memory) (k : Nat) (len : Word)
    (outside : ∀ a, s.dstCap.toNat ≤ a → m.get? a = s.memD.get? a) :
    CommandEffect s .encode { s with memD := m, draws := k, rlen := len, status := 0#32 }
  /-- DECODE writes `RLEN` and `D` below the declared length (R88, R89). -/
  | decode (m : Memory) (len : Word)
    (outside : ∀ a, declaredLen s.readS ≤ a → m.get? a = s.memD.get? a) :
    CommandEffect s .decode { s with memD := m, rlen := len, status := 0#32 }

/-- ENCODE leaves the cells at or beyond the capacity (R78, R79). -/
theorem get?_encodeOutput_of_cap_le (rd : Nat → Byte) (pad : PadDraw) {n cap a : Nat}
    (hc : 24 * (1 + (n + 2) / 3) ≤ cap) (m : Memory) (ha : cap ≤ a) :
    (encodeOutput rd pad n (24 * (1 + (n + 2) / 3)) cap m).get? a = m.get? a := by
  rw [get?_encodeOutput rd pad hc, if_neg (by omega), if_neg (by omega), if_neg (by omega)]

/-- DECODE leaves the cells at or beyond the declared length (R88). -/
theorem get?_writeDecoded_of_len_le (rd : Nat → Byte) {len a : Nat} (j : Nat) (m : Memory) (ha : len ≤ a) :
    (writeDecoded rd len j m).get? a = m.get? a := by
  rw [get?_writeDecoded, if_neg (by omega)]

/-- Every command answers, and its next state has the shape of its row (R24). -/
theorem exec_effect (i : Instr) (s : State) : ∃ t, exec i s = .next t ∧ CommandEffect s i t := by
  cases i with
  | extsize =>
    obtain ⟨_, e⟩ | ⟨_, e⟩ := execExtsize_cases s
    · exact ⟨_, e, .fails _ .tooLarge⟩
    · exact ⟨_, e, .extsize _⟩
  | imgsize =>
    obtain ⟨_, e⟩ | ⟨_, _, _, e⟩ | ⟨_, _, _, e⟩ := imgsizeWith_cases Config.rowPadRule s
    · exact ⟨_, e, .fails _ .invalidArguments⟩
    · exact ⟨_, e, .fails _ .tooLarge⟩
    · exact ⟨_, e, .imgsize _ _ _⟩
  | expand => exact ⟨_, execExpand_eq s, .expand _⟩
  | contract => exact ⟨_, execContract_eq s, .contract _⟩
  | encode =>
    obtain ⟨_, e⟩ | ⟨_, _, e⟩ | ⟨_, hc, e⟩ := encodeWith_cases s.nextPad s
    · exact ⟨_, e, .fails _ .tooLarge⟩
    · exact ⟨_, e, .fails _ .outputTooSmall⟩
    · exact ⟨_, e, .encode _ _ _ fun _ => get?_encodeOutput_of_cap_le _ _ hc _⟩
  | decode =>
    obtain ⟨_, e⟩ | ⟨_, _, e⟩ | ⟨_, _, _, e⟩ | ⟨_, _, _, e⟩ := execDecode_cases s
    · exact ⟨_, e, .fails _ .inputTooSmall⟩
    · exact ⟨_, e, .fails _ .inputTooSmall⟩
    · exact ⟨_, e, .fails _ .outputTooSmall⟩
    · exact ⟨_, e, .decode _ _ fun _ => get?_writeDecoded_of_len_le _ _ _⟩

/-- The length a header declares bit by bit is the one DECODE computes (R85). -/
theorem eq_declaredLen_of_declares {s : State} {len : Nat} (h : declares s len) : len = declaredLen s.readS := by
  obtain ⟨hlen, hbits⟩ := h
  apply Nat.eq_of_testBit_eq
  intro k
  by_cases hk : k < 24
  · rw [hbits k hk, testBit_declaredLen _ hk]
    rfl
  · have hp : (2 : Nat) ^ 24 ≤ 2 ^ k := Nat.pow_le_pow_right (by omega) (by omega)
    have hd := declaredLen_lt s.readS
    rw [Nat.testBit_lt_two_pow (by omega), Nat.testBit_lt_two_pow (by omega)]

/-! ### The rows of R24, column by column -/

namespace CommandEffect

variable {s t : State} {i : Instr}

/-- No command writes `CMD`, `SRC_LEN`, `DST_CAP`, `ROWPIX` or `S` (R24), nor the reset count and the host's two lists. -/
theorem keeps_operands (h : CommandEffect s i t) :
    t.cmd = s.cmd ∧ t.srcLen = s.srcLen ∧ t.dstCap = s.dstCap ∧ t.rowPix = s.rowPix ∧ t.memS = s.memS ∧
      t.resets = s.resets ∧ t.hostMoves = s.hostMoves ∧ t.hostReplies = s.hostReplies := by
  cases h <;> exact ⟨rfl, rfl, rfl, rfl, rfl, rfl, rfl, rfl⟩

theorem keeps_resets (h : CommandEffect s i t) : t.resets = s.resets := by
  cases h <;> rfl

theorem keeps_rlen (h : CommandEffect s i t) (hi : i = .expand ∨ i = .contract) : t.rlen = s.rlen := by
  cases h with
  | fails | expand | contract => rfl
  | extsize | imgsize | encode | decode => simp at hi

theorem keeps_image (h : CommandEffect s i t) (hi : i ≠ .imgsize) : t.width = s.width ∧ t.height = s.height := by
  cases h with
  | imgsize => exact absurd rfl hi
  | _ => exact ⟨rfl, rfl⟩

theorem keeps_g (h : CommandEffect s i t) (hi : i ≠ .contract) : t.g = s.g := by
  cases h with
  | contract => exact absurd rfl hi
  | _ => rfl

theorem keeps_pixels (h : CommandEffect s i t) (hi : i ≠ .expand) :
    t.p0 = s.p0 ∧ t.p1 = s.p1 ∧ t.p2 = s.p2 ∧ t.p3 = s.p3 ∧ t.p4 = s.p4 ∧ t.p5 = s.p5 := by
  cases h with
  | expand => exact absurd rfl hi
  | _ => exact ⟨rfl, rfl, rfl, rfl, rfl, rfl⟩

theorem keeps_memD (h : CommandEffect s i t) (he : i ≠ .encode) (hd : i ≠ .decode) : t.memD = s.memD := by
  cases h with
  | encode => exact absurd rfl he
  | decode => exact absurd rfl hd
  | _ => rfl

theorem encode_keeps_beyond_cap (h : CommandEffect s .encode t) {a : Nat} (ha : s.dstCap.toNat ≤ a) :
    t.memD.get? a = s.memD.get? a := by
  cases h with
  | fails => rfl
  | encode _ _ _ outside => exact outside a ha

theorem decode_keeps_beyond_len (h : CommandEffect s .decode t) {a : Nat} (ha : declaredLen s.readS ≤ a) :
    t.memD.get? a = s.memD.get? a := by
  cases h with
  | fails => rfl
  | decode _ _ outside => exact outside a ha

/-- A command that does not end with `STATUS` 0 writes `STATUS` alone (R24's error column, R106). -/
theorem eq_setStatus_of_failed (h : CommandEffect s i t) (hs : t.status ≠ 0#32) :
    t = { s with status := t.status } := by
  cases h with
  | fails => rfl
  | _ => exact absurd rfl hs

theorem keeps_draws (h : CommandEffect s i t) (hi : i ≠ .encode) : t.draws = s.draws := by
  cases h with
  | encode => exact absurd rfl hi
  | _ => rfl

/-- A cell of `D` that is listed as before reads as before: no command counts a reset. -/
theorem readD_eq (h : CommandEffect s i t) {a : Nat} (ha : t.memD.get? a = s.memD.get? a) :
    t.memD.get? a = s.memD.get? a ∧ t.readD a = s.readD a :=
  ⟨ha, State.readD_congr ha h.keeps_resets⟩

end CommandEffect

/-! ### The command step -/

/-- R46: the decoder undoes the encoder. -/
theorem decode_encode (i : Instr) : decode (encode i) = .command i := by
  cases i <;> decide

/-- A full 32-bit table word is itself (log 9). -/
@[simp] theorem tableWord_toNat (w : Word) : tableWord 32 w.toNat = w := by
  rw [tableWord, Nat.mod_eq_of_lt w.isLt, BitVec.ofNat_toNat, BitVec.setWidth_eq]

/-- A pending command write is the command step of its word (R13, R51). -/
theorem step_commandMove {s : State} {rest : List HostMove} {w : Word} (h : s.hostMoves = commandMove w :: rest) :
    step s = issueCommand w { s with hostMoves := rest } := by
  rw [step_cons h, hostMove_command]

/-- A pending command write of a legal word runs the command (R51). -/
theorem step_commandMove_command {s : State} {rest : List HostMove} {w : Word} {i : Instr}
    (h : s.hostMoves = commandMove w :: rest) (hw : decode w = .command i) :
    step s = exec i { s with hostMoves := rest, cmd := w } := by
  rw [step_commandMove h, issueCommand_command hw]

/-- The step of a command placed as the host's next move (log 9). -/
theorem step_withFetchWord (s : State) (i : Instr) :
    step (s.withFetchWord 32 (encode i).toNat) = exec i { s with cmd := encode i } := by
  have hmoves : (s.withFetchWord 32 (encode i).toNat).hostMoves = commandMove (encode i) :: s.hostMoves := by
    simp [State.withFetchWord]
  rw [step_commandMove_command hmoves (decode_encode i)]
  rfl

end Sys2Proof.Machine

namespace Sys2Proof.Proofs

open Sys2Proof.Machine

/-- Settles O45: every command has one of the effects of `CommandEffect`, and each column of R24 is a fact about those. -/
theorem commandsWriteOnlyTheirTableRow : Obligations.CommandsWriteOnlyTheirTableRow := by
  intro i s
  obtain ⟨t, ht, h⟩ := exec_effect i s
  obtain ⟨hcmd, hsrc, hcap, hrow, hS, hresets, hmoves, hreplies⟩ := h.keeps_operands
  refine ⟨t, ht, hcmd, hsrc, hcap, hrow, hS, hresets, hmoves, hreplies, h.keeps_rlen, h.keeps_image, h.keeps_g,
    h.keeps_pixels, ?others, ?encode, ?decode, h.eq_setStatus_of_failed, h.keeps_draws⟩
  case others =>
    intro he hd
    have hD := h.keeps_memD he hd
    exact ⟨hD, fun a => State.readD_congr (by rw [hD]) hresets⟩
  case encode =>
    rintro rfl a ha
    exact h.readD_eq (h.encode_keeps_beyond_cap ha)
  case decode =>
    rintro rfl len hlen a ha
    exact h.readD_eq (h.decode_keeps_beyond_len (eq_declaredLen_of_declares hlen ▸ ha))

/-- Settles O4: the pending command write is `issueCommand`, which runs the decoded command. -/
theorem stepRunsTheDecodedCommand : Obligations.StepRunsTheDecodedCommand :=
  ⟨fun _ _ _ h => step_commandMove h, fun _ _ _ _ h hw _ => step_commandMove_command h hw, step_withFetchWord⟩

/-- Settles O54, slot by slot; an empty list of cells holds nothing. -/
theorem resetLeavesEveryRegisterZero : Obligations.ResetLeavesEveryRegisterZero := by
  refine ⟨fun sl => ?_, fun a => ⟨Memory.get?_nil a, Memory.get?_nil a⟩⟩
  cases sl <;> rfl

end Sys2Proof.Proofs
end

section
/-!
The encoding family (R44 to R47): the decoder on a word's two fields, the six legal words, and the command step of every other
word.
-/

namespace Sys2Proof.Machine

open Sys2Proof.Claim

/-! ### The two fields of a word -/

/-- Field `rsv0` is bits 31:8 (R44). -/
theorem rsvField_eq_zero_iff (w : Word) : rsvField w = 0 ↔ w.extractLsb' 8 24 = 0#24 := by
  have hw := w.isLt
  simp only [rsvField, ← BitVec.toNat_inj, BitVec.extractLsb'_toNat, BitVec.toNat_ofNat, Nat.shiftRight_eq_div_pow]
  omega

/-- Field `opcode` is bits 7:0 (R44). -/
theorem opcodeField_eq_toNat (w : Word) : opcodeField w = (w.extractLsb' 0 8).toNat := by
  simp [opcodeField]

/-- Bits 31:8 of a zero-extended opcode byte are 0 and bits 7:0 are the byte. -/
@[simp] theorem extractLsb'_zero_setWidth (op : Byte) : (op.setWidth 32).extractLsb' 0 8 = op := by
  apply BitVec.eq_of_toNat_eq
  simpa using op.isLt

/-- A word is its two fields (R44). -/
theorem toNat_eq_fields (w : Word) : w.toNat = 256 * rsvField w + opcodeField w := by
  simp only [rsvField, opcodeField]
  omega

/-! ### The legal words -/

/-- The opcode map inverts `opcode` (R46). -/
theorem decodeOpcode_eq_command_iff (n : Nat) (i : Instr) : decodeOpcode n = .command i ↔ n = (opcode i).toNat := by
  constructor
  · intro h
    unfold decodeOpcode at h
    split at h <;> cases h <;> rfl
  · rintro rfl
    cases i <;> rfl

/-- A word selects a command exactly by its two fields (R46). -/
theorem decode_eq_command_iff (w : Word) (i : Instr) :
    decode w = .command i ↔ w.extractLsb' 8 24 = 0#24 ∧ w.extractLsb' 0 8 = opcode i := by
  rw [← rsvField_eq_zero_iff, ← BitVec.toNat_inj, ← opcodeField_eq_toNat, ← decodeOpcode_eq_command_iff]
  by_cases h : rsvField w = 0 <;> simp [decode, h]

/-- The encoder answers the words of the opcode table (R46). -/
theorem encode_eq_matchWord (i : Instr) : encode i = matchWord i := by
  cases i <;> rfl

/-- The match word is the only word that selects the command (R46). -/
theorem decode_eq_command_iff_eq_matchWord (w : Word) (i : Instr) : decode w = .command i ↔ w = matchWord i := by
  rw [← encode_eq_matchWord]
  constructor
  · intro h
    obtain ⟨hrsv, hop⟩ := (decode_eq_command_iff w i).mp h
    have hnat : w.toNat = (opcode i).toNat := by
      rw [toNat_eq_fields, (rsvField_eq_zero_iff w).mpr hrsv, opcodeField_eq_toNat, hop, Nat.mul_zero, Nat.zero_add]
    exact BitVec.eq_of_toNat_eq (hnat.trans (BitVec.toNat_setWidth_of_le (by decide)).symm)
  · rintro rfl
    exact decode_encode i

/-- The opcodes are the bytes 0x01 to 0x06 (R46). -/
theorem exists_eq_opcode_iff (op : Byte) : (∃ i, op = opcode i) ↔ 0x01#8 ≤ op ∧ op ≤ 0x06#8 := by
  constructor
  · rintro ⟨i, rfl⟩
    cases i <;> decide
  · rintro ⟨hlo, hhi⟩
    have hcases : op = 1#8 ∨ op = 2#8 ∨ op = 3#8 ∨ op = 4#8 ∨ op = 5#8 ∨ op = 6#8 := by bv_omega
    obtain h | h | h | h | h | h := hcases
    · exact ⟨.extsize, h⟩
    · exact ⟨.imgsize, h⟩
    · exact ⟨.expand, h⟩
    · exact ⟨.contract, h⟩
    · exact ⟨.encode, h⟩
    · exact ⟨.decode, h⟩

/-- The words that select a command are the legal ones (R46). -/
theorem exists_decode_eq_command_iff (w : Word) : (∃ i, decode w = .command i) ↔ legalWord w := by
  simp only [decode_eq_command_iff, exists_and_left, exists_eq_opcode_iff, legalWord]

/-! ### The illegal words -/

/-- Outside the opcode table there is no legal word (R47). -/
theorem forall_ne_matchWord_iff (w : Word) : (∀ i, w ≠ matchWord i) ↔ ¬ legalWord w := by
  rw [← exists_decode_eq_command_iff, not_exists]
  simp only [decode_eq_command_iff_eq_matchWord, ne_eq]

/-- The decoder is total: what selects no command is illegal (R47). -/
theorem exists_decode_eq_illegal {w : Word} (h : ∀ i, w ≠ matchWord i) : ∃ why, decode w = .illegal why := by
  cases hd : decode w with
  | command i => exact absurd ((decode_eq_command_iff_eq_matchWord w i).mp hd) (h i)
  | illegal why => exact ⟨why, rfl⟩

/-- A zero-extended opcode 0x00, or 0x07 to 0xFF, is no legal word (R47). -/
theorem not_legalWord_setWidth {op : Byte} (h : op = 0x00#8 ∨ 0x07#8 ≤ op) : ¬ legalWord (op.setWidth 32) := by
  rintro ⟨-, hlo, hhi⟩
  rw [extractLsb'_zero_setWidth] at hlo hhi
  bv_omega

end Sys2Proof.Machine

namespace Sys2Proof.Proofs

open Sys2Proof.Machine Sys2Proof.Claim

/-- Settles O2: by the two fields, by the match word (the mask is all ones), and for the six words together. -/
theorem decoderAcceptsExactlyTheSixWords : Obligations.DecoderAcceptsExactlyTheSixWords := by
  intro w i
  refine ⟨decode_eq_command_iff w i, ?_, exists_decode_eq_command_iff w⟩
  have hmask : w &&& 0xFFFFFFFF#32 = w := BitVec.and_allOnes
  rw [hmask]
  exact decode_eq_command_iff_eq_matchWord w i

/-- Settles O5: a word outside the table decodes to `illegal`, so its step is that of `issueCommand_illegal`; the illegal words
of R47 each miss a clause of `legalWord`. -/
theorem illegalWordSetsStatus254AndNothingElse : Obligations.IllegalWordSetsStatus254AndNothingElse := by
  refine ⟨fun s w h => ?step, forall_ne_matchWord_iff, ?allZero, ?allOnes, fun w hrsv ⟨h, _⟩ => hrsv h,
    fun op => not_legalWord_setWidth⟩
  case step =>
    obtain ⟨why, hd⟩ := exists_decode_eq_illegal h
    exact ⟨⟨why, hd⟩, issueCommand_illegal hd s⟩
  case allZero => exact not_legalWord_setWidth (op := 0x00#8) (.inl rfl)
  case allOnes => exact fun ⟨hrsv, _⟩ => absurd hrsv (by decide)

/-- Settles O1: the decoder undoes the encoder on every command. -/
theorem encodedCommandDecodesToItself : Obligations.EncodedCommandDecodesToItself :=
  fun i _ => decode_encode i

end Sys2Proof.Proofs
end

section
/-!
The size family (R52 to R58, R60): when `extendedSize` answers and what, the payloads that fit a buffer, rounding to whole
rows, and the length header.
-/

namespace Sys2Proof.Machine

open Sys2Proof.Claim

/-! ### The size function -/

/-- The formula of R52 is the closed form of R53. -/
theorem groupRounding_eq_usedLen (n : Nat) : ((3 + n + 2) - (3 + n + 2) % 3) * 8 = usedLen n := by
  simp only [usedLen]
  omega

/-- The sizes `extendedSize` answers are the closed form below 2^24, and no other (R53). -/
theorem extendedSize_eq_ok_iff (n e : Nat) : extendedSize n = .ok e ↔ n < 16777216 ∧ e = usedLen n := by
  obtain ⟨hn, h⟩ | ⟨hn, h⟩ := extendedSize_cases n
  · simp [h, Nat.not_lt.mpr hn]
  · simp [h, hn, usedLen, eq_comm]

/-- The used length of a legal payload is at most that of the largest one (R57). -/
theorem usedLen_le {n : Nat} (h : n < 16777216) : usedLen n ≤ 134217744 := by
  simp only [usedLen]
  omega

/-- The lengths whose last group is group `g`, for `g` from 1 on (R56). -/
theorem eq_usedLen_iff_of_pos {n : Nat} (hn : 0 < n) (L : Nat) :
    L = usedLen n ↔ ∃ g, 1 ≤ g ∧ L = 24 * (1 + g) ∧ (n = 3 * g - 2 ∨ n = 3 * g - 1 ∨ n = 3 * g) := by
  simp only [usedLen]
  constructor
  · rintro rfl
    exact ⟨(n + 2) / 3, by omega, rfl, by omega⟩
  · rintro ⟨g, hg, rfl, hlast⟩
    omega

/-- A payload fits a buffer of `L` bytes up to three bytes for each group after the header (R56). -/
theorem usedLen_le_iff {L : Nat} (hL : 24 ≤ L) (n : Nat) : usedLen n ≤ L ↔ n ≤ 3 * (L / 24 - 1) := by
  simp only [usedLen]
  omega

/-! ### Whole rows -/

/-- A multiple of the row that starts less than a row after `e` is `e` exactly when `e` is itself a multiple. -/
theorem eq_iff_mod_eq_zero_of_lt_add {e r L : Nat} (hr : r ∣ L) (hle : e ≤ L) (hlt : L < e + r) :
    L = e ↔ e % r = 0 := by
  constructor
  · rintro rfl
    exact Nat.mod_eq_zero_of_dvd hr
  · intro he
    have hzero : L - e = 0 :=
      Nat.eq_zero_of_dvd_of_lt (Nat.dvd_sub hr (Nat.dvd_of_mod_eq_zero he)) (by omega)
    omega

/-- A length rounded up to rows of `w` pixels is `w` pixels by its number of rows by three channels (R58). -/
theorem width_mul_height_mul_channels {w L : Nat} (h : 3 * w ∣ L) : w * (L / (3 * w)) * 3 = L := by
  rw [Nat.mul_comm _ 3, ← Nat.mul_assoc, Nat.mul_div_cancel' h]

/-! ### The length header -/

/-- A byte cut from a number is its low eight bits (R7, R60). -/
theorem toNat_ofNat_byte (m : Nat) : (BitVec.ofNat 8 m).toNat = m &&& 0xFF := by
  rw [BitVec.toNat_ofNat]
  exact (Nat.and_two_pow_sub_one_eq_mod m 8).symm

/-- The group in a register that holds `n` is the length header of `n` (R20, R60). -/
theorem groupOfWord_ofNat (n : Nat) : groupOfWord (BitVec.ofNat 32 n) = headerBytes n := by
  refine group_ext fun i hi => byte_ext fun b hb => ?_
  rw [byteAt_groupOfWord _ hi, byteAt_headerBytes n hi, getLsbD_lane, BitVec.getLsbD_ofNat, BitVec.getLsbD_ofNat,
    Nat.testBit_shiftRight, decide_eq_true (show 8 * i + b < 32 by omega), Bool.true_and]

/-- Every three bytes are the header of the length they declare (R60). -/
theorem headerBytes_headerLen (gr : Group) : headerBytes (headerLen gr) = gr := by
  refine group_ext fun i hi => byte_ext fun b hb => ?_
  rw [byteAt_headerBytes _ hi, BitVec.getLsbD_ofNat, Nat.testBit_shiftRight, testBit_headerLen, decide_eq_true hb,
    decide_eq_true (show 8 * i + b < 24 by omega), Bool.true_and, Bool.true_and,
    show (8 * i + b) / 8 = i by omega, show (8 * i + b) % 8 = b by omega]

end Sys2Proof.Machine

namespace Sys2Proof.Proofs

open Sys2Proof.Machine Sys2Proof.Claim

/-- Settles O7: the consequences are facts about the closed form, which is all `extendedSize` answers. -/
theorem extendedSizeClosedForm : Obligations.ExtendedSizeClosedForm := by
  refine ⟨fun _ => extendedSize_ok, fun _ => extendedSize_error, ?bounded, ?monotone, ?nextGroup⟩
  all_goals simp only [extendedSize_eq_ok_iff]
  case bounded =>
    rintro n _ ⟨hn, rfl⟩
    exact ⟨Nat.dvd_mul_right 24 _, usedLen_le hn⟩
  case monotone =>
    rintro n m _ _ ⟨_, rfl⟩ ⟨_, rfl⟩ hnm
    simp only [usedLen]
    omega
  case nextGroup =>
    rintro n _ _ ⟨_, rfl⟩ ⟨_, rfl⟩
    simp only [usedLen]
    omega

/-- Settles O8: the empty payload has no group after the header; any other length determines its last group. -/
theorem extendedSizePreimages : Obligations.ExtendedSizePreimages := by
  refine ⟨fun L n => ?preimage, fun L n hL => ?fits⟩
  case preimage =>
    rw [extendedSize_eq_ok_iff]
    obtain rfl | hn := Nat.eq_zero_or_pos n
    · constructor
      · exact fun ⟨_, h⟩ => .inl ⟨h, rfl⟩
      · rintro (⟨h, _⟩ | ⟨g, hg, _, _, hlast⟩)
        · exact ⟨by omega, h⟩
        · omega
    · rw [eq_usedLen_iff_of_pos hn]
      constructor
      · rintro ⟨_, g, hg, hL, hlast⟩
        exact .inr ⟨g, hg, by omega, hL, hlast⟩
      · rintro (⟨_, h⟩ | ⟨g, hg, hmax, hL, hlast⟩)
        · omega
        · exact ⟨by omega, g, hg, hL, hlast⟩
  case fits =>
    simp only [extendedSize_eq_ok_iff, and_assoc, exists_and_left, exists_eq_left, usedLen_le_iff hL]
    omega

/-- Settles O9: the two outcomes of EXTSIZE, with R52's formula for the closed form. -/
theorem extsizeWritesTheUsedLength : Obligations.ExtsizeWritesTheUsedLength := by
  refine ⟨decode_encode .extsize, fun s => ?_⟩
  rw [groupRounding_eq_usedLen]
  obtain ⟨hn, e⟩ | ⟨hn, e⟩ := execExtsize_cases s
  · exact ⟨fun h => absurd hn (Nat.not_le.mpr h), fun _ => e⟩
  · exact ⟨fun _ => ⟨Nat.lt_of_le_of_lt (usedLen_le hn) (by decide), e⟩, fun h => absurd hn (Nat.not_lt.mpr h)⟩

/-- Settles O10: the three outcomes of IMGSIZE; on success the length is the multiple of the row in `[e, e + row)`. -/
theorem imgsizeWritesRowsAndShape : Obligations.ImgsizeWritesRowsAndShape := by
  refine ⟨decode_encode .imgsize, fun s => ?_⟩
  obtain ⟨hw, e⟩ | ⟨hlo, hhi, hn, e⟩ | ⟨hlo, hhi, hn, e⟩ := imgsizeWith_cases .ceil s
  · exact ⟨fun _ _ => by omega, fun _ => e, fun _ _ => by omega⟩
  · exact ⟨fun _ _ _ => by omega, fun _ => by omega, fun _ _ _ => e⟩
  · refine ⟨fun _ _ _ => ⟨padToRows .ceil (usedLen s.srcLen.toNat) (3 * s.rowPix.toNat), e, rfl, ?_⟩,
      fun _ => by omega, fun _ _ _ => by omega⟩
    have hrow : 0 < 3 * s.rowPix.toNat := by omega
    have hsize : 0 < usedLen s.srcLen.toNat := by simp [usedLen]
    have hmax := usedLen_le hn
    obtain ⟨hdvd, hle, -⟩ := padToRows_spec .ceil (usedLen s.srcLen.toNat) hrow
    have hlt := padToRows_ceil_lt (usedLen s.srcLen.toNat) hrow
    exact ⟨Nat.mod_eq_zero_of_dvd hdvd, hle, hlt, eq_iff_mod_eq_zero_of_lt_add hdvd hle hlt, by omega,
      Nat.div_pos (Nat.le_of_dvd (by omega) hdvd) hrow, width_mul_height_mul_channels hdvd⟩

/-- Settles O20: the two round trips, and a declared length is below 2^24, where `extendedSize` answers. -/
theorem lengthHeaderRoundTrip : Obligations.LengthHeaderRoundTrip :=
  ⟨fun n hn => ⟨toNat_ofNat_byte n, toNat_ofNat_byte _, toNat_ofNat_byte _, headerLen_headerBytes hn,
      groupOfWord_ofNat n⟩,
    fun gr => ⟨rfl, Nat.le_of_lt_succ (headerLen_lt gr), headerBytes_headerLen gr, _,
      extendedSize_ok (headerLen_lt gr)⟩⟩

end Sys2Proof.Proofs
end

section
/-!
The group family (R62 to R69): the channel bytes of a group, the threshold, the two compositions, and EXPAND and CONTRACT in
register terms.
-/

namespace Sys2Proof.Machine

/-! ### Bits and channel bytes -/

/-- The bit test of R63, a shift and a mask, reads one bit. -/
theorem shiftRight_and_one_eq_one_iff (x : Byte) (b : Nat) : (x >>> b) &&& 1#8 = 1#8 ↔ x.getLsbD b = true := by
  rw [BitVec.and_one_eq_setWidth_ofBool_getLsbD, BitVec.getLsbD_ushiftRight, Nat.add_zero]
  cases x.getLsbD b <;> decide

/-- Thresholding and writing back keeps exactly the channel bytes 0 and 255 (R69). -/
theorem channelOfBit_bitOfChannel_eq_self_iff (c : Byte) :
    channelOfBit (bitOfChannel c) = c ↔ c = 0#8 ∨ c = 255#8 := by
  constructor
  · intro h
    rw [← h]
    exact channelOfBit_mem _
  · rintro (rfl | rfl) <;> rfl

/-- The most-significant bit of a channel byte, as a bit of its pixel-group register (R21, R67). -/
theorem State.getLsbD_seven_channel (s : State) (k : Nat) :
    (s.channel k).getLsbD 7 = (s.pixelReg (k / 4)).getLsbD (8 * (k % 4) + 7) := by
  rw [State.channel, getLsbD_lane, decide_eq_true (by decide), Bool.true_and]

/-! ### The group functions -/

/-- Channel byte `k` of an expanded group is bit `k` of the group read as a number (R62, R65). -/
theorem expand3_eq_channelOfBit_testBit (gr : Group) {k : Nat} (hk : k < 24) :
    expand3 gr k = channelOfBit ((headerLen gr).testBit k) := by
  rw [← expand3_headerBytes _ hk, headerBytes_headerLen]

/-- Contracting undoes expanding (R69 (a)). -/
@[simp] theorem contract24_expand3 (gr : Group) : contract24 (expand3 gr) = gr := by
  refine group_ext fun i hi => byte_ext fun b hb => ?_
  rw [getLsbD_byteAt_contract24 _ hi hb, expand3_at _ hb, bitOfChannel_channelOfBit]

/-- Expanding after contracting thresholds every channel byte (R69 (b)). -/
theorem expand3_contract24 (p : Nat → Byte) {k : Nat} (hk : k < 24) :
    expand3 (contract24 p) k = channelOfBit (bitOfChannel (p k)) := by
  rw [expand3, getLsbD_byteAt_contract24 _ (by omega) (by omega), Nat.div_add_mod]

/-! ### The two commands -/

/-- The frame of a write of the pixel-group registers and `STATUS` (R64). -/
theorem State.setStatus_setPixels_frame (f : Nat → Word) (w : Word) (s : State) :
    (s.setPixels f).setStatus w =
      { s with p0 := f 0, p1 := f 1, p2 := f 2, p3 := f 3, p4 := f 4, p5 := f 5, status := w } := rfl

/-- A group in `G` leaves bits 31:24 zero (R20, R67). -/
theorem extractLsb'_top_wordOfGroup (gr : Group) : (wordOfGroup gr).extractLsb' 24 8 = 0#8 := by
  refine byte_ext fun b _ => ?_
  rw [BitVec.getLsbD_extractLsb', getLsbD_wordOfGroup, decide_eq_false (show ¬ 24 + b < 24 by omega), Bool.false_and,
    Bool.and_false, BitVec.getLsbD_zero]

/-- The mask of bits 23:0. -/
theorem getLsbD_lowMask (k : Nat) : (0x00FFFFFF#32).getLsbD k = decide (k < 24) :=
  Nat.testBit_two_pow_sub_one 24 k

/-- `G` after EXPAND then CONTRACT keeps its bits 23:0 only (R69 (c)). -/
theorem wordOfGroup_contract24_of_expand (s : State) :
    wordOfGroup (contract24 ((s.setPixels (pixelWord (expand3 (groupOfWord s.g)))).setStatus 0#32).channel) =
      s.g &&& 0x00FFFFFF#32 := by
  refine BitVec.eq_of_getLsbD_eq fun k _ => ?_
  rw [getLsbD_of_contract, BitVec.getLsbD_and, getLsbD_lowMask]
  by_cases hk : k < 24
  · rw [channel_of_expand s hk, bitOfChannel_channelOfBit, Bool.and_comm]
  · rw [decide_eq_false hk, Bool.false_and, Bool.and_false]

end Sys2Proof.Machine

namespace Sys2Proof.Proofs

open Sys2Proof.Machine

/-- Settles O13: the channel byte of a bit, with the bit written as R63's shift and mask. -/
theorem expandTurnsBitsIntoChannelBytes : Obligations.ExpandTurnsBitsIntoChannelBytes := by
  intro gr i bit _ hb
  rw [Nat.mul_comm i 8, expand3_at gr hb]
  simp only [shiftRight_and_one_eq_one_iff]
  rfl

/-- Settles O14: `contract24` is a left inverse of `expand3`, and each channel byte is that of one bit. -/
theorem expandIsInjectiveAndBitwise : Obligations.ExpandIsInjectiveAndBitwise := by
  refine ⟨fun g h hgh => ?injective, fun g k => channelOfBit_mem _, fun g h k hk hbit => ?bitwise⟩
  case injective =>
    rw [← contract24_expand3 g, ← contract24_expand3 h]
    exact contract24_congr fun k hk => congrArg bitOfChannel (hgh k hk)
  case bitwise =>
    rw [expand3_eq_channelOfBit_testBit g hk, expand3_eq_channelOfBit_testBit h hk, hbit]

/-- Settles O15: the one outcome of EXPAND, its channel bytes and its frame. -/
theorem expandWritesThePixelRegisters : Obligations.ExpandWritesThePixelRegisters :=
  ⟨decode_encode .expand, fun s => ⟨_, execExpand_eq s, fun _ hk => channel_of_expand s hk,
    State.setStatus_setPixels_frame _ _ s⟩⟩

/-- Settles O16: a contracted bit is its channel byte thresholded, and the threshold is bit 7. -/
theorem contractThresholdsAt128 : Obligations.ContractThresholdsAt128 := by
  refine ⟨fun p i bit hi hb => ?threshold, fun p i bit hi hb => ?values⟩
  all_goals rw [getLsbD_byteAt_contract24 p hi hb, Nat.mul_comm 8 i]
  case threshold => exact ⟨rfl, bitOfChannel_eq _⟩
  case values =>
    constructor
    · rintro (h | h) <;> rw [h] <;> rfl
    · rintro (h | h) <;> rw [h] <;> rfl

/-- Settles O17: the one outcome of CONTRACT, bit by bit, with its top byte and its frame. -/
theorem contractWritesTheGroupRegister : Obligations.ContractWritesTheGroupRegister := by
  refine ⟨decode_encode .contract, fun s =>
    ⟨_, execContract_eq s, fun k hk => ?bits, extractLsb'_top_wordOfGroup _, rfl⟩⟩
  case bits =>
    rw [getLsbD_of_contract, decide_eq_true hk, Bool.true_and, bitOfChannel_eq, State.getLsbD_seven_channel]

/-- Settles O18: the two compositions, and the fixed points of the threshold on one channel byte. -/
theorem contractUndoesExpand : Obligations.ContractUndoesExpand := by
  refine ⟨contract24_expand3, fun p k hk => ?projection, fun p => ?fixed⟩
  case projection =>
    rw [expand3_contract24 p hk, channelOfBit, bitOfChannel]
    simp only [decide_eq_true_eq]
    rfl
  case fixed =>
    refine forall₂_congr fun k hk => ?_
    rw [expand3_contract24 p hk, channelOfBit_bitOfChannel_eq_self_iff]

/-- Settles O19: both commands always answer; the registers in between are read by their bits. -/
theorem expandThenContractClearsOnlyTheTopByte : Obligations.ExpandThenContractClearsOnlyTheTopByte := by
  refine fun s => ⟨⟨_, _, execExpand_eq s, execContract_eq _, wordOfGroup_contract24_of_expand s⟩,
    ⟨_, _, execContract_eq s, execExpand_eq _, fun k hk => ?lanes⟩⟩
  case lanes =>
    rw [channel_of_expand _ hk, getLsbD_of_contract, decide_eq_true hk, Bool.true_and, bitOfChannel_eq]
    rfl

end Sys2Proof.Proofs
end

section
/-!
The ENCODE family (R71 to R81): the two checks, and the result of a success as one bit stream, read group by group.
-/

namespace Sys2Proof.Machine

open Sys2Proof.Claim

/-! ### The stream of header, payload and padding -/

/-- The first three bytes of the stream are the length header (R73, R81). -/
theorem streamByte_eq_byteAt_headerBytes (s : State) (pad : PadDraw) {j : Nat} (hj : j < 3) :
    streamByte s pad j = (headerBytes s.srcLen.toNat).byteAt j := by
  rw [streamByte, if_pos hj, byteAt_headerBytes _ hj]

/-- After the header the stream is the payload continued by the pad draw (R75, R81). -/
theorem streamByte_add_three (s : State) (pad : PadDraw) (i : Nat) :
    streamByte s pad (i + 3) = padded s.readS pad s.srcLen.toNat i := by
  have hpayload : i + 3 < 3 + s.srcLen.toNat ↔ i < s.srcLen.toNat := by omega
  have hpad : i + 3 = 3 + s.srcLen.toNat ↔ i = s.srcLen.toNat := by omega
  rw [streamByte, if_neg (by omega), padded, Nat.add_sub_cancel]
  simp only [hpayload, hpad]

/-- Within the payload the encoder expands the payload's own bytes (R74). -/
theorem padded_of_lt (rd : Nat → Byte) (pad : PadDraw) {n i : Nat} (hi : i < n) : padded rd pad n i = rd i := by
  rw [padded, if_pos hi]

/-! ### The result of a successful ENCODE -/

/-- `t` is what a successful ENCODE makes of `s` (R79 to R81): `D` holds the bits of the stream, then zeros up to the capacity,
then what it held before. -/
structure EncodeResult (pad : PadDraw) (s t : State) : Prop where
  frame : t = { s with
    memD := t.memD, draws := s.draws + drawsUsed s.srcLen.toNat
    rlen := BitVec.ofNat 32 (usedLen s.srcLen.toNat), status := 0#32 }
  stream : ∀ a < usedLen s.srcLen.toNat, t.readD a = channelOfBit ((streamByte s pad (a / 8)).getLsbD (a % 8))
  zeros : ∀ a, usedLen s.srcLen.toNat ≤ a → a < s.dstCap.toNat → t.readD a = 0#8
  beyond : ∀ a, s.dstCap.toNat ≤ a → t.readD a = s.readD a

/-- The ENCODE of `exec` takes the next pad draw of the machine (R76). -/
theorem exec_encode (s : State) : exec .encode s = encodeWith s.nextPad s := rfl

/-- When its two checks pass, ENCODE succeeds (R72). -/
theorem encodeWith_of_encodeFits (pad : PadDraw) {s : State} (h : encodeFits s) :
    ∃ t, encodeWith pad s = .next t ∧ EncodeResult pad s t := by
  obtain ⟨hn, hc⟩ := h
  obtain ⟨t, ht, hframe, -, hD⟩ := encodeWith_success pad s hn hc
  rw [← usedLen] at hframe hD
  have h24 : 24 ≤ usedLen s.srcLen.toNat := by simp only [usedLen]; omega
  refine ⟨t, ht, hframe, fun a ha => ?stream, fun a ha hcap => ?zeros, fun a ha => ?beyond⟩
  case stream =>
    rw [hD]
    by_cases hhdr : a < 24
    · rw [if_pos hhdr, ← expand3_headerBytes _ hhdr, expand3, streamByte_eq_byteAt_headerBytes s pad (by omega)]
    · obtain ⟨b, rfl⟩ : ∃ b, a = b + 3 * 8 := ⟨a - 24, by omega⟩
      rw [if_neg hhdr, if_pos ha, Nat.add_mul_div_right b 3 (by decide), streamByte_add_three,
        Nat.add_mul_mod_self_right]
      rfl
  case zeros => rw [hD, if_neg (by omega), if_neg (by omega), if_pos hcap]
  case beyond => rw [hD, if_neg (by omega), if_neg (by omega), if_neg (by omega)]

/-- The same for the ENCODE of `exec`. -/
theorem exec_encode_of_encodeFits {s : State} (h : encodeFits s) :
    ∃ t, exec .encode s = .next t ∧ EncodeResult s.nextPad s t :=
  exec_encode s ▸ encodeWith_of_encodeFits s.nextPad h

namespace EncodeResult

variable {pad : PadDraw} {s t : State}

/-- Every 24 cells of the used region are the expansion of three stream bytes (R80, R81). -/
theorem readD_group (h : EncodeResult pad s t) {j k : Nat} (hj : 24 * (j + 1) ≤ usedLen s.srcLen.toNat) (hk : k < 24) :
    t.readD (24 * j + k) =
      expand3 ⟨streamByte s pad (3 * j), streamByte s pad (3 * j + 1), streamByte s pad (3 * j + 2)⟩ k := by
  rw [h.stream _ (by omega), expand3_three (streamByte s pad) _ hk, show (24 * j + k) / 8 = 3 * j + k / 8 by omega,
    show (24 * j + k) % 8 = k % 8 by omega]

/-- The header group (R73). -/
theorem readD_header (h : EncodeResult pad s t) {k : Nat} (hk : k < 24) :
    t.readD k = expand3 (headerBytes s.srcLen.toNat) k := by
  have hgroup := h.readD_group (j := 0) (by simp only [usedLen]; omega) hk
  simp only [Nat.mul_zero, Nat.zero_add] at hgroup
  rw [hgroup, streamByte_eq_byteAt_headerBytes s pad (by decide), streamByte_eq_byteAt_headerBytes s pad (by decide),
    streamByte_eq_byteAt_headerBytes s pad (by decide)]
  rfl

/-- Group `j` of the padded payload (R74, R75). -/
theorem readD_payload_group (h : EncodeResult pad s t) {j k : Nat} (hj : 3 * j < s.srcLen.toNat) (hk : k < 24) :
    t.readD (24 + 24 * j + k) = expand3 ⟨padded s.readS pad s.srcLen.toNat (3 * j),
      padded s.readS pad s.srcLen.toNat (3 * j + 1), padded s.readS pad s.srcLen.toNat (3 * j + 2)⟩ k := by
  have hgroup := h.readD_group (j := j + 1) (by simp only [usedLen]; omega) hk
  rw [show 24 * (j + 1) + k = 24 + 24 * j + k by omega] at hgroup
  rw [hgroup, ← streamByte_add_three, ← streamByte_add_three, ← streamByte_add_three]
  rfl

/-- A group all of whose bytes are payload (R74). -/
theorem readD_full_group (h : EncodeResult pad s t) {j k : Nat} (hj : 3 * j + 2 < s.srcLen.toNat) (hk : k < 24) :
    t.readD (24 + 24 * j + k) = expand3 ⟨s.readS (3 * j), s.readS (3 * j + 1), s.readS (3 * j + 2)⟩ k := by
  rw [h.readD_payload_group (by omega) hk, padded_of_lt _ _ (by omega), padded_of_lt _ _ (by omega),
    padded_of_lt _ _ hj]

/-- The last group of a payload that is not empty (R75). -/
theorem readD_last_group (h : EncodeResult pad s t) (hn : 1 ≤ s.srcLen.toNat) {k : Nat} (hk : k < 24) :
    t.readD (24 + 8 * fullBytes s.srcLen.toNat + k) = expand3 (lastGroup s.readS pad s.srcLen.toNat) k := by
  obtain ⟨j, hj⟩ : ∃ j, fullBytes s.srcLen.toNat = 3 * j :=
    ⟨fullBytes s.srcLen.toNat / 3, by simp only [fullBytes]; omega⟩
  have hlt : fullBytes s.srcLen.toNat < s.srcLen.toNat := by simp only [fullBytes]; omega
  rw [lastGroup_eq _ _ hn, hj, show 24 + 8 * (3 * j) + k = 24 + 24 * j + k by omega]
  exact h.readD_payload_group (by omega) hk

/-- `RLEN` reports the used length (R79). -/
theorem rlen_toNat (h : EncodeResult pad s t) (hn : s.srcLen.toNat < 16777216) :
    t.rlen.toNat = usedLen s.srcLen.toNat := by
  have hmax := usedLen_le hn
  rw [h.frame, BitVec.toNat_ofNat, Nat.mod_eq_of_lt (by omega)]

/-- The frame of ENCODE, with the draw counter and `RLEN` left to the next state (R79). -/
theorem eq_with_results (h : EncodeResult pad s t) :
    t = { s with memD := t.memD, draws := t.draws, rlen := t.rlen, status := 0#32 } := by
  rw [h.frame]

/-- ENCODE writes no cell of `S` (R79). -/
theorem readS_eq (h : EncodeResult pad s t) (a : Nat) : t.readS a = s.readS a := by
  rw [h.frame]
  rfl

/-- ENCODE of the empty payload leaves only zeros below the capacity (R77). -/
theorem readD_eq_zero_of_empty (h : EncodeResult pad s t) (hn : s.srcLen.toNat = 0) {a : Nat}
    (ha : a < s.dstCap.toNat) : t.readD a = 0#8 := by
  by_cases hhdr : a < 24
  · rw [h.readD_header hhdr, expand3_headerBytes _ hhdr, hn, Nat.zero_testBit]
    rfl
  · exact h.zeros a (by simp only [usedLen]; omega) ha

end EncodeResult

/-! ### The pad draw -/

/-- ENCODE depends on the pad draw through the payload groups only (R76). -/
theorem encodeWith_congr_pad {pad pad' : PadDraw} {s : State}
    (h : ∀ m, writePayload s.readS pad s.srcLen.toNat m = writePayload s.readS pad' s.srcLen.toNat m) :
    encodeWith pad s = encodeWith pad' s := by
  simp only [encodeWith, encodeOutput, h]

/-- The empty payload has no group (R77). -/
theorem writePayload_zero (rd : Nat → Byte) (pad : PadDraw) (m : Memory) : writePayload rd pad 0 m = m := rfl

end Sys2Proof.Machine

namespace Sys2Proof.Proofs

open Sys2Proof.Machine Sys2Proof.Claim

/-- Settles O21: the three outcomes of ENCODE, whose conditions exclude each other. -/
theorem encodeChecksInOrder : Obligations.EncodeChecksInOrder := by
  intro s
  rw [exec_encode, usedLen]
  obtain ⟨hn, e⟩ | ⟨hn, hc, e⟩ | ⟨hn, hc, e⟩ := encodeWith_cases s.nextPad s
  · exact ⟨fun _ => e, fun _ => by omega, fun _ => by omega⟩
  · exact ⟨fun _ => by omega, fun _ _ => e, fun _ _ => by omega⟩
  · exact ⟨fun _ => by omega, fun _ _ => by omega, fun _ _ => ⟨_, e, rfl⟩⟩

/-- Settles O22: the header group, by the bits of the length and by its three bytes. -/
theorem encodeWritesTheLengthHeader : Obligations.EncodeWritesTheLengthHeader := by
  intro s hs
  obtain ⟨t, ht, h⟩ := exec_encode_of_encodeFits hs
  refine ⟨t, ht, fun k hk => ⟨?_, h.readD_header hk⟩⟩
  rw [h.readD_header hk, expand3_headerBytes _ hk]
  rfl

/-- Settles O23: the payload groups before the last one hold payload bytes only. -/
theorem encodeExpandsTheFullGroups : Obligations.EncodeExpandsTheFullGroups := by
  intro s full hs hn hfull
  obtain ⟨t, ht, h⟩ := exec_encode_of_encodeFits hs
  exact ⟨by omega, by omega, by omega, t, ht, fun j k hj hk => h.readD_full_group (by omega) hk⟩

/-- Settles O24: the last group for one, two and three payload bytes left. -/
theorem encodeCompletesTheLastGroup : Obligations.EncodeCompletesTheLastGroup := by
  intro pad s full hs hn hfull
  obtain ⟨t, ht, h⟩ := encodeWith_of_encodeFits pad hs
  have hlast : ∀ k < 24, t.readD (24 + 8 * full + k) = expand3 (lastGroup s.readS pad s.srcLen.toNat) k := by
    rw [hfull]
    exact fun k hk => h.readD_last_group hn hk
  simp only [lastGroup, fullBytes, ← hfull] at hlast
  refine ⟨by simp only [usedLen]; omega, by omega, t, ht, ?_⟩
  have hrem : s.srcLen.toNat - full = 1 ∨ s.srcLen.toNat - full = 2 ∨ s.srcLen.toNat - full = 3 := by omega
  obtain hr | hr | hr := hrem
  · exact .inl ⟨hr, by simpa [hr] using hlast⟩
  · exact .inr (.inl ⟨hr, by simpa [hr] using hlast⟩)
  · exact .inr (.inr ⟨hr, by simpa [hr] using hlast⟩)

/-- Settles O25: with no payload group no pad byte is used, and header and zero-fill are zeros. -/
theorem encodeOfTheEmptyPayloadWritesZeros : Obligations.EncodeOfTheEmptyPayloadWritesZeros := by
  intro s hsrc hcap
  have hn : s.srcLen.toNat = 0 := by rw [hsrc]; rfl
  have hs : encodeFits s := by
    rw [encodeFits, hn]
    exact ⟨by decide, hcap⟩
  obtain ⟨t, ht, h⟩ := exec_encode_of_encodeFits hs
  refine ⟨t, ht, fun pad => ?anyPad, ?rlen, ?status, fun a => h.readD_eq_zero_of_empty hn, h.beyond⟩
  case anyPad =>
    rw [← ht, exec_encode]
    exact encodeWith_congr_pad fun m => by rw [hn, writePayload_zero, writePayload_zero]
  case rlen => rw [h.frame, hn]; rfl
  case status => rw [h.frame]

/-- Settles O27: the frame of the result, with its two memories read cell by cell. -/
theorem encodeChangesOnlyItsResults : Obligations.EncodeChangesOnlyItsResults := by
  intro s hs
  obtain ⟨t, ht, h⟩ := exec_encode_of_encodeFits hs
  exact ⟨t, ht, h.rlen_toNat hs.1, h.eq_with_results, h.readS_eq, h.beyond⟩

/-- Settles O28: the result of ENCODE is stated as the bit stream. -/
theorem encodeOutputIsTheBitStream : Obligations.EncodeOutputIsTheBitStream := by
  intro pad s hs
  obtain ⟨t, ht, h⟩ := encodeWith_of_encodeFits pad hs
  exact ⟨t, ht, h.stream, h.zeros⟩

end Sys2Proof.Proofs
end

section
/-!
The DECODE family (R83 to R91): the checks, and the result of a success byte by byte and bit by bit.
-/

namespace Sys2Proof.Machine

open Sys2Proof.Claim

/-- The DECODE of `exec` (R51). -/
theorem exec_decode (s : State) : exec .decode s = execDecode s := rfl

/-- A buffer below 25 bytes is rejected, whatever it holds (R84). -/
theorem exec_decode_of_srcLen_lt {s : State} (h : s.srcLen.toNat < 25) :
    exec .decode s = .next { s with status := 1#32 } := by
  rw [exec_decode]
  obtain ⟨_, e⟩ | ⟨_, _⟩ | ⟨_, _⟩ | ⟨_, _⟩ := execDecode_cases s
  case inl => exact e
  all_goals omega

/-! ### The result of a successful DECODE -/

/-- `t` is what a successful DECODE of `len` declared bytes makes of `s` (R88, R89): `D` holds the contracted groups up to the
declared length, then what it held before. -/
structure DecodeResult (s : State) (len : Nat) (t : State) : Prop where
  frame : t = { s with memD := t.memD, rlen := BitVec.ofNat 32 len, status := 0#32 }
  payload : ∀ x < len, t.readD x = (decodedGroup s.readS (x / 3)).byteAt (x % 3)
  beyond : ∀ a, len ≤ a → t.memD.get? a = s.memD.get? a

/-- The four outcomes of DECODE for a header that declares `len`, in the order of its checks (R84, R86, R87, R90). -/
theorem exec_decode_cases {s : State} {len : Nat} (h : declares s len) :
    (s.srcLen.toNat < 25 ∧ exec .decode s = .next { s with status := 1#32 }) ∨
    (25 ≤ s.srcLen.toNat ∧ s.srcLen.toNat < usedLen len ∧ exec .decode s = .next { s with status := 1#32 }) ∨
    (25 ≤ s.srcLen.toNat ∧ usedLen len ≤ s.srcLen.toNat ∧ s.dstCap.toNat < len ∧
      exec .decode s = .next { s with status := 2#32 }) ∨
    (decodeFits s len ∧ ∃ t, exec .decode s = .next t ∧ DecodeResult s len t) := by
  have hcases := execDecode_cases s
  have hsuccess := execDecode_success s
  rw [← eq_declaredLen_of_declares h, ← usedLen] at hcases hsuccess
  rw [exec_decode]
  obtain hshort | hused | hcap | ⟨hmin, hused, hcap, -⟩ := hcases
  · exact .inl hshort
  · exact .inr (.inl hused)
  · exact .inr (.inr (.inl hcap))
  · obtain ⟨t, ht, hframe, hmemD, hD⟩ := hsuccess hmin hused hcap
    refine .inr (.inr (.inr ⟨⟨h, hmin, hused, hcap⟩, t, ht, hframe, fun x hx => ?payload, fun a ha => ?beyond⟩))
    case payload => rw [hD, if_pos hx]
    case beyond => rw [hmemD, get?_writeDecoded_of_len_le _ _ _ ha]

/-- When its three checks pass, DECODE succeeds (R90). -/
theorem exec_decode_of_decodeFits {s : State} {len : Nat} (h : decodeFits s len) :
    ∃ t, exec .decode s = .next t ∧ DecodeResult s len t := by
  obtain ⟨hlen, hmin, hused, hcap⟩ := h
  obtain ⟨_, _⟩ | ⟨_, _, _⟩ | ⟨_, _, _, _⟩ | ⟨_, hsuccess⟩ := exec_decode_cases hlen
  case inr.inr.inr => exact hsuccess
  all_goals omega

namespace DecodeResult

variable {s t : State} {len : Nat}

/-- `RLEN` reports the declared length (R89). -/
theorem rlen_toNat (h : DecodeResult s len t) (hlen : len < 16777216) : t.rlen.toNat = len := by
  rw [h.frame, BitVec.toNat_ofNat, Nat.mod_eq_of_lt (by omega)]

/-- A successful DECODE ends with `STATUS` 0 (R89). -/
theorem status_eq (h : DecodeResult s len t) : t.status = 0#32 := by
  rw [h.frame]

/-- The frame of DECODE, with `RLEN` left to the next state (R89). -/
theorem eq_with_results (h : DecodeResult s len t) :
    t = { s with memD := t.memD, rlen := t.rlen, status := 0#32 } := by
  rw [h.frame]

/-- DECODE writes no cell of `S` (R89). -/
theorem readS_eq (h : DecodeResult s len t) (a : Nat) : t.readS a = s.readS a := by
  rw [h.frame]
  rfl

/-- DECODE counts no reset. -/
theorem resets_eq (h : DecodeResult s len t) : t.resets = s.resets := by
  rw [h.frame]

/-- Byte `i` of payload group `j` (R88). -/
theorem readD_group (h : DecodeResult s len t) {j i : Nat} (hi : i < 3) (hlt : 3 * j + i < len) :
    t.readD (3 * j + i) = (decodedGroup s.readS j).byteAt i := by
  rw [h.payload _ hlt, show (3 * j + i) / 3 = j by omega, show (3 * j + i) % 3 = i by omega]

/-- Bit `b` of payload byte `j` is bit 7 of its channel byte (R91). -/
theorem getLsbD_readD (h : DecodeResult s len t) {j b : Nat} (hj : j < len) (hb : b < 8) :
    (t.readD j).getLsbD b = (s.readS (24 + 8 * j + b)).getLsbD 7 := by
  rw [h.payload j hj, getLsbD_decodedByte _ _ hb, bitOfChannel_eq]

end DecodeResult

end Sys2Proof.Machine

namespace Sys2Proof.Proofs

open Sys2Proof.Machine Sys2Proof.Claim

/-- Settles O33: the declared length is the number in three contracted bytes, read by its bits. -/
theorem decodeReadsTheLengthHeader : Obligations.DecodeReadsTheLengthHeader := by
  refine fun s => ⟨rfl, Nat.le_of_lt_succ (declaredLen_lt _), fun k hk => ?bits⟩
  case bits => rw [testBit_declaredLen _ hk, bitOfChannel_eq]

/-- Settles O34: the four outcomes of DECODE, whose conditions exclude each other. -/
theorem decodeChecksInOrder : Obligations.DecodeChecksInOrder := by
  intro s len hlen
  refine ⟨fun h => ⟨exec_decode_of_srcLen_lt h, fun m => exec_decode_of_srcLen_lt (s := { s with memS := m }) h⟩,
    extendedSize_ok hlen.1, ?checksFrom25⟩
  case checksFrom25 =>
    obtain ⟨_, _⟩ | ⟨_, _, e⟩ | ⟨_, _, _, e⟩ | ⟨⟨_, _, _, _⟩, t, ht, h⟩ := exec_decode_cases hlen
    · exact ⟨fun _ => by omega, fun _ => by omega, fun _ => by omega⟩
    · exact ⟨fun _ _ => e, fun _ _ => by omega, fun _ _ => by omega⟩
    · exact ⟨fun _ _ => by omega, fun _ _ _ => e, fun _ _ _ => by omega⟩
    · exact ⟨fun _ _ => by omega, fun _ _ _ => by omega, fun _ _ _ => ⟨t, ht, h.status_eq, h.rlen_toNat hlen.1⟩⟩

/-- Settles O35: the result read group by group, its frame, and the end of the last group read. -/
theorem decodeWritesThePayloadAndNothingElse : Obligations.DecodeWritesThePayloadAndNothingElse := by
  intro s len hs
  obtain ⟨t, ht, h⟩ := exec_decode_of_decodeFits hs
  obtain ⟨hlen, -, hused, -⟩ := hs
  refine ⟨t, ht, h.rlen_toNat hlen.1, h.eq_with_results, fun j i hi hlt => h.readD_group hi hlt,
    fun a ha => ⟨h.beyond a ha, State.readD_congr (h.beyond a ha) h.resets_eq⟩, h.readS_eq, ?reads⟩
  case reads =>
    rw [usedLen] at hused
    omega

/-- Settles O36: the payload of the result, bit by bit. -/
theorem decodedBitIsTheChannelMsb : Obligations.DecodedBitIsTheChannelMsb := by
  intro s len hs
  obtain ⟨t, ht, h⟩ := exec_decode_of_decodeFits hs
  exact ⟨t, ht, fun _ _ hj hb => h.getLsbD_readD hj hb⟩

end Sys2Proof.Proofs
end

section
/-!
The codec family (R94 to R98): the channel bytes of an encoded buffer, DECODE on buffers that declare the same bits, and the image
interpretation of a padded buffer.
-/

namespace Sys2Proof.Machine

open Sys2Proof.Claim

/-! ### Encoded buffers -/

/-- The header and the payload bits lie in the used region (R53, R94). -/
theorem payloadBits_le_usedLen (n : Nat) : 24 + 8 * n ≤ usedLen n := by
  simp only [usedLen]
  omega

namespace EncodeResult

variable {pad : PadDraw} {s t : State}

/-- ENCODE writes channel bytes of bits only (R65, R78, R96). -/
theorem readD_eq_zero_or_255 (h : EncodeResult pad s t) {a : Nat} (ha : a < s.dstCap.toNat) :
    t.readD a = 0#8 ∨ t.readD a = 255#8 := by
  obtain hused | hfill := Nat.lt_or_ge a (usedLen s.srcLen.toNat)
  · rw [h.stream a hused]
    exact channelOfBit_mem _
  · exact .inl (h.zeros a hfill ha)

/-- The eight channel bytes of payload byte `j` are its bits (R74, R75, R81). -/
theorem readD_payload_bit (h : EncodeResult pad s t) {j b : Nat} (hj : j < s.srcLen.toNat) (hb : b < 8) :
    t.readD (24 + 8 * j + b) = channelOfBit ((s.readS j).getLsbD b) := by
  have hle := payloadBits_le_usedLen s.srcLen.toNat
  rw [h.stream _ (by omega), show (24 + 8 * j + b) / 8 = j + 3 by omega, show (24 + 8 * j + b) % 8 = b by omega,
    streamByte_add_three, padded_of_lt _ _ hj]

/-- A copy of an encoded buffer declares the payload's length (R73, R85). -/
theorem declares_of_copy (h : EncodeResult pad s t) (hs : encodeFits s) {u : State}
    (hcopy : ∀ a, a < s.dstCap.toNat → u.readS a = t.readD a) : declares u s.srcLen.toNat := by
  obtain ⟨hn, hcap⟩ := hs
  have hle := payloadBits_le_usedLen s.srcLen.toNat
  refine ⟨hn, fun k hk => ?_⟩
  rw [hcopy k (by omega), h.readD_header hk, expand3_headerBytes _ hk]
  exact (bitOfChannel_channelOfBit _).symm

end EncodeResult

/-! ### Buffers that declare the same bits -/

/-- A channel byte reads as a set bit exactly when its bit 7 is set (R66). -/
theorem isSet_eq_getLsbD_seven (c : Byte) : isSet c = c.getLsbD 7 := bitOfChannel_eq c

/-- A perturbation that keeps a channel byte 0 or 255 on its side of 127/128 keeps its bit 7 (R68, R97). -/
theorem getLsbD_seven_eq_of_same_side {c d : Byte} (hc : c = 0#8 ∨ c = 255#8)
    (hside : (c = 255#8 → 128 ≤ d.toNat) ∧ (c = 0#8 → d.toNat ≤ 127)) : c.getLsbD 7 = d.getLsbD 7 := by
  obtain ⟨hset, hclear⟩ := hside
  rw [← isSet_eq_getLsbD_seven d, isSet]
  obtain rfl | rfl := hc
  · exact (decide_eq_false (Nat.not_le.mpr (Nat.lt_succ_of_le (hclear rfl)))).symm
  · exact (decide_eq_true (hset rfl)).symm

/-- Two buffers that agree in bit 7 of the header declare the same length (R85, R94). -/
theorem declares_congr {s s' : State} {len : Nat} (h : declares s len)
    (hbits : ∀ k < 24, (s.readS k).getLsbD 7 = (s'.readS k).getLsbD 7) : declares s' len := by
  obtain ⟨hlen, hdeclared⟩ := h
  refine ⟨hlen, fun k hk => ?_⟩
  rw [hdeclared k hk, isSet_eq_getLsbD_seven, isSet_eq_getLsbD_seven, hbits k hk]

/-- Payloads decoded from buffers that agree in bit 7 of the declared region are equal (R91, R94). -/
theorem DecodeResult.readD_congr {s s' t t' : State} {len j : Nat} (h : DecodeResult s len t)
    (h' : DecodeResult s' len t')
    (hbits : ∀ a, a < 24 + 8 * len → (s.readS a).getLsbD 7 = (s'.readS a).getLsbD 7) (hj : j < len) :
    t.readD j = t'.readD j :=
  byte_ext fun b hb => by rw [h.getLsbD_readD hj hb, h'.getLsbD_readD hj hb, hbits _ (by omega)]

/-- DECODE ends with the same `STATUS` on both machines and, if that is success, with the same `RLEN` and the same `len` bytes of
payload: what R94 and R97 mean by decoding alike. -/
def DecodesAlike (s s' : State) (len : Nat) : Prop :=
  ∃ t t', exec .decode s = .next t ∧ exec .decode s' = .next t' ∧ t.status = t'.status ∧
    (t.status = 0#32 → t.rlen = t'.rlen ∧ ∀ j, j < len → t.readD j = t'.readD j)

/-- Buffers below 25 bytes are rejected alike (R84). -/
theorem decodesAlike_of_srcLen_lt {s s' : State} (hs : s.srcLen.toNat < 25) (hs' : s'.srcLen.toNat < 25) (len : Nat) :
    DecodesAlike s s' len :=
  ⟨_, _, exec_decode_of_srcLen_lt hs, exec_decode_of_srcLen_lt hs', rfl, fun h => absurd h (show 1#32 ≠ 0#32 by decide)⟩

/-- A destination below the declared length is rejected once the buffer is long enough (R87). -/
theorem exec_decode_of_dstCap_lt {s : State} {len : Nat} (h : declares s len)
    (hlong : max 25 (usedLen len) ≤ s.srcLen.toNat) (hcap : s.dstCap.toNat < len) :
    exec .decode s = .next { s with status := 2#32 } := by
  obtain ⟨-, -, -, hfails, -⟩ := Proofs.decodeChecksInOrder s len h
  obtain ⟨hmin, hused⟩ := Nat.max_le.mp hlong
  exact hfails hmin hused hcap

/-- When its checks pass, DECODE succeeds: both length checks as one bound (R90). -/
theorem exec_decode_of_le_dstCap {s : State} {len : Nat} (h : declares s len)
    (hlong : max 25 (usedLen len) ≤ s.srcLen.toNat) (hcap : len ≤ s.dstCap.toNat) :
    ∃ t, exec .decode s = .next t ∧ DecodeResult s len t := by
  obtain ⟨hmin, hused⟩ := Nat.max_le.mp hlong
  exact exec_decode_of_decodeFits ⟨h, hmin, hused, hcap⟩

/-- Buffers that hold the declared region decode alike when they agree in bit 7 of it: only the capacity check can still fail, and
it compares the same two numbers on both machines (R87, R94). -/
theorem decodesAlike_of_declared_bits {s s' : State} {len : Nat} (h : declares s len)
    (hbits : ∀ a, a < 24 + 8 * len → (s.readS a).getLsbD 7 = (s'.readS a).getLsbD 7)
    (hs : max 25 (usedLen len) ≤ s.srcLen.toNat) (hs' : max 25 (usedLen len) ≤ s'.srcLen.toNat)
    (hcap : s.dstCap = s'.dstCap) : DecodesAlike s s' len := by
  have h' : declares s' len := declares_congr h fun k hk => hbits k (by omega)
  obtain hshort | hfit := Nat.lt_or_ge s.dstCap.toNat len
  · exact ⟨_, _, exec_decode_of_dstCap_lt h hs hshort, exec_decode_of_dstCap_lt h' hs' (hcap ▸ hshort), rfl,
      fun hok => absurd hok (show 2#32 ≠ 0#32 by decide)⟩
  · obtain ⟨t, ht, hr⟩ := exec_decode_of_le_dstCap h hs hfit
    obtain ⟨t', ht', hr'⟩ := exec_decode_of_le_dstCap h' hs' (hcap ▸ hfit)
    refine ⟨t, t', ht, ht', hr.status_eq.trans hr'.status_eq.symm, fun _ => ⟨?_, fun j => hr.readD_congr hr' hbits⟩⟩
    rw [hr.frame, hr'.frame]

/-! ### The image interpretation -/

/-- Every channel byte of `height` rows lies in one of them (R98). -/
theorem imagePosition_row_lt {width height a : Nat} (ha : a < width * height * 3) :
    (imagePosition width a).1 < height :=
  Nat.div_lt_of_lt_mul (by rwa [channels, Nat.mul_assoc, Nat.mul_comm])

/-- The position read row-major is the address: no gaps (R98). -/
theorem imagePosition_rowMajor (width a : Nat) :
    a = ((imagePosition width a).1 * width + (imagePosition width a).2.1) * 3 + (imagePosition width a).2.2 := by
  simp only [imagePosition, channels]
  rw [← Nat.div_div_eq_div_mul, Nat.div_add_mod', Nat.div_add_mod']

end Sys2Proof.Machine

namespace Sys2Proof.Proofs

open Sys2Proof.Machine Sys2Proof.Claim

/-- Settles O12: the length IMGSIZE reports is `WIDTH` × `HEIGHT` pixels of three channels, and positions are row-major. -/
theorem imageInterpretationCoversTheBuffer : Obligations.ImageInterpretationCoversTheBuffer := by
  intro s hlo hhi hn
  obtain ⟨L, ht, -, -, -, -, -, hL, -, hshape⟩ := (imgsizeWritesRowsAndShape.2 s).1 hlo hhi hn
  refine ⟨_, ht, fun a ha => ⟨rfl, ?row, Nat.mod_lt _ hlo, Nat.mod_lt _ (by decide), imagePosition_rowMajor _ a⟩⟩
  case row =>
    have hrows : L / (3 * s.rowPix.toNat) ≤ L := Nat.div_le_self _ _
    rw [BitVec.toNat_ofNat, Nat.mod_eq_of_lt (by omega)] at ha ⊢
    exact imagePosition_row_lt (hshape.symm ▸ ha)

/-- Settles O30: the used region and the lanes of EXPAND hold channel bytes of bits, the zero-fill zeros. -/
theorem encodedBytesAreZeroOr255 : Obligations.EncodedBytesAreZeroOr255 := by
  refine ⟨fun s hs => ?encode, fun s => ⟨_, execExpand_eq s, fun k hk => ?expand⟩⟩
  case encode =>
    obtain ⟨t, ht, h⟩ := exec_encode_of_encodeFits hs
    exact ⟨t, ht, fun a => h.readD_eq_zero_or_255⟩
  case expand =>
    rw [channel_of_expand s hk]
    exact channelOfBit_mem _

/-- Settles O37: both buffers pass the length checks, so the declared bits and the capacity decide. -/
theorem decodeDependsOnlyOnTheDeclaredBits : Obligations.DecodeDependsOnlyOnTheDeclaredBits :=
  fun _ _ _ => decodesAlike_of_declared_bits

/-- Settles O38: a copy of 25 bytes or more declares the payload's length and holds its bits; a copy of 24 is too short. -/
theorem encodeThenDecodeRoundTrip : Obligations.EncodeThenDecodeRoundTrip := by
  intro pad s hs
  obtain ⟨t, ht, h⟩ := encodeWith_of_encodeFits pad hs
  have hle := payloadBits_le_usedLen s.srcLen.toNat
  have ⟨hn, hcap⟩ := hs
  refine ⟨t, ht, by rw [h.frame], fun hpos => ?capacity, fun u hlen hcopy hdst => ⟨fun hmin => ?long, fun hshort => ?short⟩⟩
  case capacity =>
    simp only [usedLen] at hcap
    omega
  case long =>
    rw [← hlen] at hmin hcap
    obtain ⟨v, hv, hr⟩ := exec_decode_of_decodeFits ⟨h.declares_of_copy hs hcopy, hmin, hcap, hdst⟩
    refine ⟨v, hv, hr.status_eq, BitVec.eq_of_toNat_eq (hr.rlen_toNat hn), fun j hj => byte_ext fun b hb => ?_⟩
    rw [hr.getLsbD_readD hj hb, hcopy _ (by rw [← hlen]; omega), h.readD_payload_bit hj hb, ← bitOfChannel_eq,
      bitOfChannel_channelOfBit]
  case short => exact exec_decode_of_srcLen_lt (hlen ▸ hshort)

/-- Settles O39: the perturbation keeps bit 7 of every used channel byte, and the declared bits are among them. -/
theorem decodeToleratesPerturbedChannels : Obligations.DecodeToleratesPerturbedChannels := by
  intro pad s hs
  obtain ⟨t, ht, h⟩ := encodeWith_of_encodeFits pad hs
  refine ⟨t, ht, fun u u' hlen hlen' hdst hcopy hside => ?_⟩
  obtain hshort | hmin := Nat.lt_or_ge s.dstCap.toNat 25
  · exact decodesAlike_of_srcLen_lt (hlen ▸ hshort) (hlen' ▸ hshort) _
  · have hlong : max 25 (usedLen s.srcLen.toNat) ≤ s.dstCap.toNat := Nat.max_le.mpr ⟨hmin, hs.2⟩
    refine decodesAlike_of_declared_bits (h.declares_of_copy hs hcopy) (fun a ha => ?bits) (hlen ▸ hlong)
      (hlen' ▸ hlong) hdst
    have hused : a < usedLen s.srcLen.toNat := Nat.lt_of_lt_of_le ha (payloadBits_le_usedLen _)
    have hacap : a < s.dstCap.toNat := Nat.lt_of_lt_of_le hused hs.2
    rw [hcopy a hacap]
    exact getLsbD_seven_eq_of_same_side (h.readD_eq_zero_or_255 hacap) (hside a hused)

end Sys2Proof.Proofs
end

section
/-!
The exceptions family (R11, R101, R105, R117): how each command ends, and which host moves the engine answers.
-/

namespace Sys2Proof.Machine

open Sys2Proof.Claim

/-! ### How a command ends -/

/-- A command ends in one of two ways, as `raises` says: with no kind to raise it leaves `STATUS` 0, otherwise it leaves the
number of the kind and nothing else changed (R101, R105, R106). -/
theorem exec_cases_raises (i : Instr) {s : State} {len : Nat} (h : declares s len) :
    (raises i s len = none ∧ ∃ t, exec i s = .next t ∧ t.status = 0#32) ∨
      ∃ k, raises i s len = some k ∧ exec i s = .next { s with status := kindNumber k } := by
  cases i with
  | extsize =>
    obtain ⟨hn, e⟩ | ⟨hn, e⟩ := execExtsize_cases s
    · exact .inr ⟨.tooLarge, if_pos hn, e⟩
    · exact .inl ⟨if_neg (Nat.not_le.mpr hn), _, e, rfl⟩
  | imgsize =>
    obtain ⟨hw, e⟩ | ⟨hlo, hhi, hn, e⟩ | ⟨hlo, hhi, hn, e⟩ := imgsizeWith_cases Config.rowPadRule s
    · exact .inr ⟨.invalidArguments, if_pos hw, e⟩
    · exact .inr ⟨.tooLarge, by rw [raises, if_neg (by omega), if_pos hn], e⟩
    · exact .inl ⟨by rw [raises, if_neg (by omega), if_neg (Nat.not_le.mpr hn)], _, e, rfl⟩
  | expand => exact .inl ⟨rfl, _, execExpand_eq s, rfl⟩
  | contract => exact .inl ⟨rfl, _, execContract_eq s, rfl⟩
  | encode =>
    obtain ⟨hn, e⟩ | ⟨hn, hc, e⟩ | ⟨hn, hc, e⟩ := encodeWith_cases s.nextPad s
    · exact .inr ⟨.tooLarge, if_pos hn, e⟩
    · exact .inr ⟨.outputTooSmall, by rw [raises, if_neg (Nat.not_le.mpr hn), usedLen, if_pos hc], e⟩
    · exact .inl
        ⟨by rw [raises, if_neg (Nat.not_le.mpr hn), usedLen, if_neg (Nat.not_lt.mpr hc)], _, e, rfl⟩
  | decode =>
    obtain ⟨hmin, e⟩ | ⟨hmin, hused, e⟩ | ⟨hmin, hused, hcap, e⟩ | ⟨⟨-, hmin, hused, hcap⟩, t, ht, hr⟩ :=
      exec_decode_cases h
    · exact .inr ⟨.inputTooSmall, if_pos hmin, e⟩
    · exact .inr ⟨.inputTooSmall, by rw [raises, if_neg (Nat.not_lt.mpr hmin), if_pos hused], e⟩
    · exact .inr ⟨.outputTooSmall,
        by rw [raises, if_neg (Nat.not_lt.mpr hmin), if_neg (Nat.not_lt.mpr hused), if_pos hcap], e⟩
    · exact .inl ⟨by rw [raises, if_neg (Nat.not_lt.mpr hmin), if_neg (Nat.not_lt.mpr hused),
        if_neg (Nat.not_lt.mpr hcap)], t, ht, hr.status_eq⟩

/-! ### Which host moves are answered -/

/-- A register write is part of the interface exactly when it reaches a slot (R22, R23). -/
theorem wellFormed_writeReg_iff (width : AccessWidth) (offset : Nat) (v : Word) :
    (HostMove.writeReg width offset v).wellFormed = true ↔ ∃ sl, accessSlot width offset = .ok sl := by
  rw [accessSlot_ok_iff]
  simp [HostMove.wellFormed, and_assoc]

/-- So is a register read. -/
theorem wellFormed_readReg_iff (width : AccessWidth) (offset : Nat) :
    (HostMove.readReg width offset).wellFormed = true ↔ ∃ sl, accessSlot width offset = .ok sl :=
  wellFormed_writeReg_iff width offset 0#32

/-- An access that reaches no slot has a problem to name (log 8). -/
theorem exists_accessSlot_eq_error {width : AccessWidth} {offset : Nat}
    (h : ¬ ∃ sl, accessSlot width offset = .ok sl) : ∃ why, accessSlot width offset = .error why := by
  cases hs : accessSlot width offset with
  | error why => exact ⟨why, rfl⟩
  | ok sl => exact absurd ⟨sl, hs⟩ h

/-- Every command word, legal or not, is answered (R51, R117). -/
theorem exists_issueCommand_eq_next (w : Word) (s : State) : ∃ t, issueCommand w s = .next t := by
  cases hw : decode w with
  | illegal why => exact ⟨_, issueCommand_illegal hw s⟩
  | command i =>
    obtain ⟨t, ht, -⟩ := exec_effect i { s with cmd := w }
    exact ⟨t, (issueCommand_command hw s).trans ht⟩

/-- A register write that reaches a slot is answered: a command, or a value stored or ignored (R12, R13). -/
theorem exists_hostWriteReg_eq_next {width : AccessWidth} {offset : Nat} {sl : Slot}
    (h : accessSlot width offset = .ok sl) (v : Word) (s : State) : ∃ t, hostWriteReg width offset v s = .next t := by
  simp only [hostWriteReg, h]
  split
  · exact exists_issueCommand_eq_next v s
  · exact ⟨_, rfl⟩

/-- The engine answers every host move of the interface (R117). -/
theorem exists_hostMove_eq_next {mv : HostMove} (h : mv.wellFormed = true) (s : State) :
    ∃ t, hostMove mv s = .next t := by
  cases mv with
  | writeReg width offset v =>
    obtain ⟨sl, hsl⟩ := (wellFormed_writeReg_iff width offset v).mp h
    exact exists_hostWriteReg_eq_next hsl v s
  | readReg width offset =>
    obtain ⟨sl, hsl⟩ := (wellFormed_readReg_iff width offset).mp h
    exact ⟨s.pushReply (.reg sl (s.readSlot sl)), by simp only [hostMove, hostReadReg, hsl]⟩
  | writeByte sp a v => cases sp <;> exact ⟨_, rfl⟩
  | readByte sp a => cases sp <;> exact ⟨_, rfl⟩
  | reset => exact ⟨_, rfl⟩

/-- A host move outside the interface is a register access, and it is refused (R22, R23). -/
theorem exists_hostMove_eq_refused {mv : HostMove} (h : mv.wellFormed = false) (s : State) :
    ∃ why, hostMove mv s = .refused (.registerAccess why) := by
  have hnot : ¬ mv.wellFormed = true := by simp [h]
  cases mv with
  | writeReg width offset v =>
    rw [wellFormed_writeReg_iff] at hnot
    obtain ⟨why, hwhy⟩ := exists_accessSlot_eq_error hnot
    exact ⟨why, by simp only [hostMove, hostWriteReg, hwhy]⟩
  | readReg width offset =>
    rw [wellFormed_readReg_iff] at hnot
    obtain ⟨why, hwhy⟩ := exists_accessSlot_eq_error hnot
    exact ⟨why, by simp only [hostMove, hostReadReg, hwhy]⟩
  | writeByte | readByte | reset => exact absurd rfl hnot

end Sys2Proof.Machine

namespace Sys2Proof.Proofs

open Sys2Proof.Machine

/-- Settles O42: a command ends in the way `raises` names. -/
theorem eachCommandRaisesItsKindsInOrder : Obligations.EachCommandRaisesItsKindsInOrder := by
  intro i s len hlen
  obtain ⟨hr, t, ht, hstatus⟩ | ⟨k, hr, ht⟩ := exec_cases_raises i hlen
  · exact ⟨t, ht, by rw [hr]; exact hstatus⟩
  · exact ⟨_, ht, by rw [hr]⟩

/-- Settles O44: a step is idle or the pending move, which is answered or refused by its form. -/
theorem everyInterfaceMoveIsAnswered : Obligations.EveryInterfaceMoveIsAnswered := by
  refine ⟨fun s hwf => ?answered, fun s mv rest hmoves hwf => ?refused⟩
  case answered =>
    cases hmoves : s.hostMoves with
    | nil => exact ⟨s, step_nil hmoves⟩
    | cons mv rest =>
      rw [step_cons hmoves]
      exact exists_hostMove_eq_next (hwf mv rest hmoves) _
  case refused =>
    rw [step_cons hmoves]
    exact exists_hostMove_eq_refused hwf _

/-- Settles O6: the step of an empty queue is idle. -/
theorem idleEngineChangesNothing : Obligations.IdleEngineChangesNothing := fun _ => step_nil

end Sys2Proof.Proofs
end

section
/-!
The reset and hazards family (R124): the row widths for which IMGSIZE gives the 24 bytes of the empty payload, a length below
the 25 that DECODE asks for.
-/

namespace Sys2Proof.Machine

open Sys2Proof.Claim

/-- Rows of `w` pixels fill the 24 bytes of the header group without padding exactly when `w` divides its 8 pixels. -/
theorem header_mod_row_eq_zero_iff (w : Nat) : 24 % (3 * w) = 0 ↔ w = 1 ∨ w = 2 ∨ w = 4 ∨ w = 8 :=
  calc 24 % (3 * w) = 0
    _ ↔ 3 * w ∣ 3 * 8 := Nat.dvd_iff_mod_eq_zero.symm
    _ ↔ w ∣ 8 := Nat.mul_dvd_mul_iff_left (by decide)
    _ ↔ w ∈ Nat.divisors 8 := by simp
    _ ↔ w = 1 ∨ w = 2 ∨ w = 4 ∨ w = 8 := by
      rw [show Nat.divisors 8 = {1, 2, 4, 8} by decide]
      simp

/-- The length IMGSIZE reports for the empty payload: whole pixels, from 24 bytes on, and 24 exactly when the row divides it
(R58, R77). -/
theorem exec_imgsize_of_empty {s : State} (hn : s.srcLen = 0#32) (hlo : 1 ≤ s.rowPix.toNat)
    (hhi : s.rowPix.toNat ≤ 16777215) :
    ∃ t, exec .imgsize s = .next t ∧ 3 ∣ t.rlen.toNat ∧ 24 ≤ t.rlen.toNat ∧
      (t.rlen.toNat = 24 ↔ 24 % (3 * s.rowPix.toNat) = 0) := by
  have hzero : s.srcLen.toNat = 0 := by simp [hn]
  obtain ⟨L, ht, -, -, hle, -, heq, hL, -, hshape⟩ :=
    (Proofs.imgsizeWritesRowsAndShape.2 s).1 hlo hhi (by omega)
  rw [hzero] at hle heq
  have hrlen : (BitVec.ofNat 32 L).toNat = L := by
    rw [BitVec.toNat_ofNat, Nat.mod_eq_of_lt (by omega)]
  refine ⟨_, ht, ?_⟩
  simp only [hrlen]
  exact ⟨hshape ▸ Nat.dvd_mul_left 3 _, hle, heq⟩

end Sys2Proof.Machine

namespace Sys2Proof.Proofs

open Sys2Proof.Machine

/-- Settles O40: 24 bytes exactly when the row divides them, the next multiple of three otherwise, and 24 is below what DECODE
asks for. -/
theorem emptyPayloadRowWidthHazard : Obligations.EmptyPayloadRowWidthHazard := by
  intro s hn hlo hhi
  obtain ⟨t, ht, hpixels, hle, heq⟩ := exec_imgsize_of_empty hn hlo hhi
  refine ⟨t, ht, heq.trans (header_mod_row_eq_zero_iff _), fun _ => by omega, fun u hu h24 => ?rejected⟩
  case rejected => exact exec_decode_of_srcLen_lt (by rw [hu, h24]; decide)

end Sys2Proof.Proofs
end

section
/-!
The commands as functions of their operands: the next state of each command as one equation, and what follows from which fields
that equation reads (R21, R25, R36, R71, R83).
-/

namespace Sys2Proof.Machine

open Sys2Proof.Claim

/-! ### The next state of a command -/

/-- The results of a buffer command: `D`, the reported length and success (R79, R89). -/
def State.withOutput (s : State) (len : Nat) (m : Memory) : State :=
  { s with memD := m, rlen := BitVec.ofNat 32 len, status := 0#32 }

/-- What ENCODE writes to `D` (R73 to R78). -/
def encodedMemory (pad : PadDraw) (s : State) : Memory :=
  encodeOutput s.readS pad s.srcLen.toNat (usedLen s.srcLen.toNat) s.dstCap.toNat s.memD

/-- What ENCODE makes of the state when its checks pass, under a given pad draw (R79, R80). -/
def encoded (pad : PadDraw) (s : State) : State :=
  (s.setDraws (s.draws + drawsUsed s.srcLen.toNat)).withOutput (usedLen s.srcLen.toNat) (encodedMemory pad s)

/-- What DECODE writes to `D` (R88). -/
def decodedMemory (s : State) : Memory :=
  writeDecoded s.readS (declaredLen s.readS) ((declaredLen s.readS + 2) / 3) s.memD

/-- The length IMGSIZE reports (R58). -/
def paddedLen (s : State) : Nat :=
  padToRows Config.rowPadRule (usedLen s.srcLen.toNat) (3 * s.rowPix.toNat)

/-- What a command makes of the state when it raises nothing: the column "writes" of R24, with the values. -/
def completed : Instr → State → State
  | .extsize, s => { s with rlen := BitVec.ofNat 32 (usedLen s.srcLen.toNat), status := 0#32 }
  | .imgsize, s =>
    { s with
      rlen := BitVec.ofNat 32 (paddedLen s), width := s.rowPix
      height := BitVec.ofNat 32 (paddedLen s / (3 * s.rowPix.toNat)), status := 0#32 }
  | .expand, s => (s.setPixels (pixelWord (expand3 (groupOfWord s.g)))).setStatus 0#32
  | .contract, s => { s with g := wordOfGroup (contract24 s.channel), status := 0#32 }
  | .encode, s => encoded s.nextPad s
  | .decode, s => s.withOutput (declaredLen s.readS) (decodedMemory s)

/-- The kind a command raises, if any, for the length its source header declares (R101, R105). -/
def raisedKind (i : Instr) (s : State) : Option ErrorKind := raises i s (declaredLen s.readS)

/-- The next state of every command (R24, R106). -/
def commandNext (i : Instr) (s : State) : State :=
  match raisedKind i s with
  | none => completed i s
  | some k => { s with status := statusWord k.code }

theorem commandNext_of_none {i : Instr} {s : State} (h : raisedKind i s = none) : commandNext i s = completed i s := by
  rw [commandNext, h]

theorem commandNext_of_some {i : Instr} {s : State} {k : ErrorKind} (h : raisedKind i s = some k) :
    commandNext i s = { s with status := statusWord k.code } := by
  rw [commandNext, h]

/-- Every source buffer declares the length DECODE computes (R85). -/
theorem declares_declaredLen (s : State) : declares s (declaredLen s.readS) :=
  ⟨declaredLen_lt _, fun _ hk => testBit_declaredLen _ hk⟩

/-- The numbers of R100 are the codes of the model. -/
theorem kindNumber_eq_statusWord (k : ErrorKind) : kindNumber k = statusWord k.code := by
  cases k <;> rfl

/-- A command that ends with `STATUS` 0 has written its results (R24). -/
theorem eq_completed_of_status_eq_zero {i : Instr} {s t : State} (h : exec i s = .next t) (h0 : t.status = 0#32) :
    t = completed i s := by
  have hfail : ∀ {w : Word}, w ≠ 0#32 → exec i s ≠ .next { s with status := w } := by
    intro w hw e
    obtain rfl := Host.Outcome.next.inj (h.symm.trans e)
    exact hw h0
  have hsame : ∀ {u : State}, exec i s = .next u → t = u := fun e => Host.Outcome.next.inj (h.symm.trans e)
  cases i with
  | extsize =>
    obtain ⟨_, e⟩ | ⟨_, e⟩ := execExtsize_cases s
    · exact absurd e (hfail (by decide))
    · exact hsame e
  | imgsize =>
    obtain ⟨_, e⟩ | ⟨_, _, _, e⟩ | ⟨_, _, _, e⟩ := imgsizeWith_cases Config.rowPadRule s
    · exact absurd e (hfail (by decide))
    · exact absurd e (hfail (by decide))
    · exact hsame e
  | expand => exact hsame (execExpand_eq s)
  | contract => exact hsame (execContract_eq s)
  | encode =>
    obtain ⟨_, e⟩ | ⟨_, _, e⟩ | ⟨_, _, e⟩ := encodeWith_cases s.nextPad s
    · exact absurd e (hfail (by decide))
    · exact absurd e (hfail (by decide))
    · exact hsame e
  | decode =>
    obtain ⟨_, e⟩ | ⟨_, _, e⟩ | ⟨_, _, _, e⟩ | ⟨_, _, _, e⟩ := execDecode_cases s
    · exact absurd e (hfail (by decide))
    · exact absurd e (hfail (by decide))
    · exact absurd e (hfail (by decide))
    · exact hsame e

/-- Every command answers, with the next state `commandNext` gives (R117). -/
theorem exec_eq (i : Instr) (s : State) : exec i s = .next (commandNext i s) := by
  obtain ⟨hr, t, ht, h0⟩ | ⟨k, hr, ht⟩ := exec_cases_raises i (declares_declaredLen s)
  · rw [commandNext_of_none hr, ht, eq_completed_of_status_eq_zero ht h0]
  · rw [commandNext_of_some hr, ht, kindNumber_eq_statusWord]

/-- The only next state of a command. -/
theorem eq_commandNext {i : Instr} {s t : State} (h : exec i s = .next t) : t = commandNext i s :=
  Host.Outcome.next.inj (h.symm.trans (exec_eq i s))

/-- The next state of a command has the shape of its row (R24). -/
theorem commandEffect_commandNext (i : Instr) (s : State) : CommandEffect s i (commandNext i s) := by
  obtain ⟨t, ht, h⟩ := exec_effect i s
  exact eq_commandNext ht ▸ h

/-- The next state of ENCODE under a given pad draw (R80). -/
theorem encodeWith_eq (pad : PadDraw) (s : State) :
    encodeWith pad s = .next (
      if 16777216 ≤ s.srcLen.toNat then { s with status := 3#32 }
      else if s.dstCap.toNat < usedLen s.srcLen.toNat then { s with status := 2#32 }
      else encoded pad s) := by
  obtain ⟨hn, e⟩ | ⟨hn, hc, e⟩ | ⟨hn, hc, e⟩ := encodeWith_cases pad s
  · rw [e, if_pos hn]
  · rw [e, if_neg (Nat.not_le.mpr hn), usedLen, if_pos hc]
  · rw [e, if_neg (Nat.not_le.mpr hn), usedLen, if_neg (Nat.not_lt.mpr hc)]
    rfl

/-! ### When a command raises nothing -/

theorem raisedKind_extsize_eq_none_iff (s : State) : raisedKind .extsize s = none ↔ s.srcLen.toNat < 16777216 := by
  simp [raisedKind, raises]

theorem raisedKind_imgsize_eq_none_iff (s : State) :
    raisedKind .imgsize s = none ↔ (1 ≤ s.rowPix.toNat ∧ s.rowPix.toNat ≤ 16777215) ∧ s.srcLen.toNat < 16777216 := by
  have hrow : ¬ (s.rowPix.toNat = 0 ∨ 16777216 ≤ s.rowPix.toNat) ↔
      1 ≤ s.rowPix.toNat ∧ s.rowPix.toNat ≤ 16777215 := by omega
  rw [raisedKind, raises, ← hrow]
  split_ifs with hw hn
  · simp [hw]
  · simp [hn]
  · simp [hw, Nat.lt_of_not_le hn]

theorem raisedKind_encode_eq_none_iff (s : State) : raisedKind .encode s = none ↔ encodeFits s := by
  rw [raisedKind, raises, encodeFits]
  split_ifs with hn hc
  · simp [hn]
  · simp [hc]
  · simp [Nat.lt_of_not_le hn, Nat.le_of_not_lt hc]

/-! ### The registers a buffer command does not touch -/

/-- The machine with other values in the registers of R21, R71 and R83. -/
def State.withGroupRegisters (s : State) (rowPix width height g : Word) (p : Nat → Word) : State :=
  { s with
    rowPix := rowPix, width := width, height := height, g := g
    p0 := p 0, p1 := p 1, p2 := p 2, p3 := p 3, p4 := p 4, p5 := p 5 }

/-- ENCODE and DECODE neither read nor write those registers (R71, R83). -/
theorem commandNext_withGroupRegisters {i : Instr} (hi : i = .encode ∨ i = .decode) (s : State) (r w h x : Word)
    (p : Nat → Word) :
    commandNext i (s.withGroupRegisters r w h x p) = (commandNext i s).withGroupRegisters r w h x p := by
  have hsame : raisedKind i (s.withGroupRegisters r w h x p) = raisedKind i s := by
    obtain rfl | rfl := hi <;> rfl
  cases hf : raisedKind i s with
  | some k =>
    rw [commandNext_of_some hf, commandNext_of_some (hsame.trans hf)]
    rfl
  | none =>
    rw [commandNext_of_none hf, commandNext_of_none (hsame.trans hf)]
    obtain rfl | rfl := hi <;> rfl

/-! ### A repeated ENCODE or DECODE -/

/-- Writing the output of ENCODE twice is writing it once. -/
theorem encodeOutput_idem (rd : Nat → Byte) (pad : PadDraw) {n cap : Nat} (hc : usedLen n ≤ cap) (hcap : cap ≤ 2 ^ 32)
    {m : Memory} (hm : m.wf) :
    encodeOutput rd pad n (usedLen n) cap (encodeOutput rd pad n (usedLen n) cap m) =
      encodeOutput rd pad n (usedLen n) cap m := by
  have honce := wf_encodeOutput rd pad hc hcap hm
  refine Memory.ext_of_wf (wf_encodeOutput rd pad hc hcap honce) honce fun x => ?_
  rw [usedLen, get?_encodeOutput rd pad hc, get?_encodeOutput rd pad hc]
  split_ifs <;> rfl

/-- Writing the output of DECODE twice is writing it once. -/
theorem writeDecoded_idem (rd : Nat → Byte) {len : Nat} (hl : len ≤ 2 ^ 32) (j : Nat) {m : Memory} (hm : m.wf) :
    writeDecoded rd len j (writeDecoded rd len j m) = writeDecoded rd len j m := by
  have honce := wf_writeDecoded rd hl j hm
  refine Memory.ext_of_wf (wf_writeDecoded rd hl j honce) honce fun x => ?_
  rw [get?_writeDecoded, get?_writeDecoded]
  split_ifs <;> rfl

/-- An ENCODE with a complete last group draws no pad byte, so that it leaves the draw counter (R75). -/
theorem completed_encode_of_complete {s : State} (h : s.srcLen.toNat % 3 = 0) :
    completed .encode s = s.withOutput (usedLen s.srcLen.toNat) (encodedMemory s.nextPad s) := by
  have hdraws : drawsUsed s.srcLen.toNat = 0 := if_pos h
  rw [completed, encoded, hdraws]
  rfl

/-- A command keeps its operands, so that issued again it raises what it raised (R24, R36). -/
theorem raisedKind_commandNext (i : Instr) (s : State) : raisedKind i (commandNext i s) = raisedKind i s := by
  obtain ⟨-, hsrc, hcap, hrow, hS, hresets, -, -⟩ := (commandEffect_commandNext i s).keeps_operands
  have hread : (commandNext i s).readS = s.readS := by
    funext a
    rw [State.readS, hS, hresets, State.readS]
  cases i <;> simp only [raisedKind, raises, hsrc, hcap, hrow, hread]

/-- CONTRACT leaves the channel bytes it reads (R67). -/
theorem State.channel_with_g_status (g w : Word) (s : State) :
    ({ s with g := g, status := w } : State).channel = s.channel := rfl

/-- A completed command completes to the same state again (R36). -/
theorem completed_idem {i : Instr} {s : State} (hs : s.memoriesCanonical) (hpad : i = .encode → s.srcLen.toNat % 3 = 0)
    (hok : raisedKind i s = none) : completed i (completed i s) = completed i s := by
  cases i with
  | extsize | imgsize => rfl
  | expand =>
    simp only [completed, State.setStatus_g, State.setPixels_g]
    generalize pixelWord (expand3 (groupOfWord s.g)) = f
    rfl
  | contract => simp only [completed, State.channel_with_g_status]
  | encode =>
    obtain ⟨-, hfits⟩ := (raisedKind_encode_eq_none_iff s).mp hok
    have hmem := encodeOutput_idem s.readS s.nextPad hfits (Nat.le_of_lt s.dstCap.isLt) hs.2
    rw [completed_encode_of_complete (hpad rfl)]
    exact (completed_encode_of_complete (s := s.withOutput _ _) (hpad rfl)).trans (congrArg (s.withOutput _) hmem)
  | decode =>
    have hlen : declaredLen s.readS ≤ 2 ^ 32 := by have := declaredLen_lt s.readS; omega
    exact congrArg (s.withOutput _) (writeDecoded_idem s.readS hlen _ hs.2)

end Sys2Proof.Machine

namespace Sys2Proof.Proofs

open Sys2Proof.Machine Sys2Proof.Claim

/-- Settles O46: the other values are in no operand of a command, so that both machines raise the same kind or write the same
results. -/
theorem commandsIgnoreEarlierOutcomes : Obligations.CommandsIgnoreEarlierOutcomes := by
  intro i s c x r w h
  refine ⟨_, _, exec_eq i s, exec_eq i _, ?_⟩
  have hsame : raisedKind i { s with cmd := c, status := x, rlen := r, width := w, height := h } = raisedKind i s := rfl
  cases hf : raisedKind i s with
  | some k =>
    rw [commandNext_of_some hf, commandNext_of_some (hsame.trans hf)]
    exact ⟨rfl, rfl, fun _ _ => rfl, rfl, rfl, fun h0 => absurd h0 (State.statusWord_code_ne_zero k),
      fun h0 => absurd h0 (State.statusWord_code_ne_zero k)⟩
  | none =>
    rw [commandNext_of_none hf, commandNext_of_none (hsame.trans hf)]
    cases i with
    | extsize | imgsize | encode | decode =>
      exact ⟨rfl, rfl, fun _ _ => rfl, rfl, rfl, fun _ _ _ => rfl, fun _ hi => by cases hi <;> exact ⟨rfl, rfl⟩⟩
    | expand => exact ⟨rfl, rfl, fun _ _ => rfl, rfl, rfl, fun _ hi => absurd rfl hi, fun _ hi => by cases hi⟩
    | contract => exact ⟨rfl, rfl, fun _ _ => rfl, rfl, rfl, fun _ _ hi => absurd rfl hi, fun _ hi => by cases hi⟩

/-- Settles O47: the replaced registers are in no operand of ENCODE or DECODE and in none of their results. -/
theorem bufferCommandsIgnoreTheGroupRegisters : Obligations.BufferCommandsIgnoreTheGroupRegisters :=
  fun i s r w h x f hi =>
    ⟨_, exec_eq i s, (exec_eq i _).trans (congrArg _ (commandNext_withGroupRegisters hi s r w h x f))⟩

/-- Settles O48: a failing command writes `STATUS` alone, and a completed one writes the same results again. -/
theorem reissuedCommandReproducesTheState : Obligations.ReissuedCommandReproducesTheState := by
  intro i s hs hpad
  refine ⟨_, exec_eq i s, (exec_eq i _).trans (congrArg _ ?_)⟩
  have hagain := raisedKind_commandNext i s
  cases hf : raisedKind i s with
  | some k => rw [commandNext_of_some (hagain.trans hf), commandNext_of_some hf]
  | none => rw [commandNext_of_none (hagain.trans hf), commandNext_of_none hf, completed_idem hs hpad hf]

end Sys2Proof.Proofs
end

section
/-!
The host's moves (R12, R13, R22, R23, R31, R39, R118): what each one answers, with its whole next state.
-/

namespace Sys2Proof.Machine

open Sys2Proof.Claim

/-- A host write to a slot other than `CMD` writes the slot (R12). -/
theorem hostMove_writeReg_of_ne_cmd {width : AccessWidth} {offset : Nat} {sl : Slot} (h : accessSlot width offset = .ok sl)
    (hsl : sl ≠ .cmd) (v : Word) (s : State) : hostMove (.writeReg width offset v) s = .next (s.writeSlot sl v) := by
  simp only [hostMove, hostWriteReg, h, if_neg hsl]

/-- A host read of a slot records its value (R23, log 2). -/
theorem hostMove_readReg {width : AccessWidth} {offset : Nat} {sl : Slot} (h : accessSlot width offset = .ok sl) (s : State) :
    hostMove (.readReg width offset) s = .next (s.pushReply (.reg sl (s.readSlot sl))) := by
  simp only [hostMove, hostReadReg, h]

/-- An answered host register write is a command word or a write of a slot (R12, R13, R22, R23). -/
theorem hostMove_writeReg_cases {width : AccessWidth} {offset : Nat} {v : Word} {s t : State}
    (h : hostMove (.writeReg width offset v) s = .next t) : issueCommand v s = .next t ∨ ∃ sl, t = s.writeSlot sl v := by
  cases hslot : accessSlot width offset with
  | error why => simp [hostMove, hostWriteReg, hslot] at h
  | ok sl =>
    by_cases hsl : sl = .cmd
    · simp only [hostMove, hostWriteReg, hslot, if_pos hsl] at h
      exact .inl h
    · exact .inr ⟨sl, Host.Outcome.next.inj (h.symm.trans (hostMove_writeReg_of_ne_cmd hslot hsl v s))⟩

/-- An answered host register read only records a reply (R22, R23). -/
theorem hostMove_readReg_cases {width : AccessWidth} {offset : Nat} {s t : State}
    (h : hostMove (.readReg width offset) s = .next t) : ∃ r, t = s.pushReply r := by
  cases hslot : accessSlot width offset with
  | error why => simp [hostMove, hostReadReg, hslot] at h
  | ok sl => exact ⟨_, Host.Outcome.next.inj (h.symm.trans (hostMove_readReg hslot s))⟩

/-- The slots that store a host write are the writable ones (R12). -/
theorem storesHostWrite_eq_slotWritable (sl : Slot) : storesHostWrite sl = State.slotWritable sl := by
  cases sl <;> rfl

/-- The host's moves still to come are in no slot. -/
theorem State.readSlot_with_hostMoves (s : State) (rest : List HostMove) (sl : Slot) :
    ({ s with hostMoves := rest } : State).readSlot sl = s.readSlot sl := by
  cases sl <;> rfl

/-- A narrow, misaligned or outside access is no part of the interface (R22, R23). -/
theorem wellFormed_eq_false_of_outside {width : AccessWidth} {offset : Nat}
    (h : width ≠ .word ∨ offset % 4 ≠ 0 ∨ 64 ≤ offset) (v : Word) :
    (HostMove.writeReg width offset v).wellFormed = false ∧ (HostMove.readReg width offset).wellFormed = false := by
  have hnone : ¬ ∃ sl, accessSlot width offset = .ok sl := by
    rw [accessSlot_ok_iff]
    rintro ⟨hwidth, haligned, hinside⟩
    obtain hn | hn | hn := h
    · exact hn hwidth
    · exact hn haligned
    · omega
  exact ⟨Bool.eq_false_iff.mpr (mt (wellFormed_writeReg_iff width offset v).mp hnone),
    Bool.eq_false_iff.mpr (mt (wellFormed_readReg_iff width offset).mp hnone)⟩

/-- Reading `S` after one cell of it is written (R31). -/
theorem State.readS_write (s : State) (rest : List HostMove) (a x : Nat) (v : Byte) :
    ({ s with hostMoves := rest, memS := s.memS.write a v } : State).readS x = if x = a then v else s.readS x := by
  simp only [State.readS, Memory.get?_write]
  split <;> rfl

/-- Reading `D` after one cell of it is written (R31). -/
theorem State.readD_write (s : State) (rest : List HostMove) (a x : Nat) (v : Byte) :
    ({ s with hostMoves := rest, memD := s.memD.write a v } : State).readD x = if x = a then v else s.readD x := by
  simp only [State.readD, Memory.get?_write]
  split <;> rfl

end Sys2Proof.Machine

namespace Sys2Proof.Proofs

open Sys2Proof.Machine Sys2Proof.Claim

/-- Settles O50: the move is one write of the slot, and the slots read back by `readSlot_writeSlot`. -/
theorem hostRegisterWrite : Obligations.HostRegisterWrite := by
  intro s rest offset v sl hmoves hslot hsl
  have hread : ∀ sl', (({ s with hostMoves := rest } : State).writeSlot sl v).readSlot sl' =
      if sl' = sl ∧ storesHostWrite sl = true then v else s.readSlot sl' := by
    intro sl'
    rw [State.readSlot_writeSlot, State.readSlot_with_hostMoves, storesHostWrite_eq_slotWritable]
  refine ⟨({ s with hostMoves := rest } : State).writeSlot sl v,
    (step_cons hmoves).trans (hostMove_writeReg_of_ne_cmd hslot hsl v _), ?written, ?others, rfl,
    State.writeSlot_memS _ _ _, State.writeSlot_memD _ _ _, State.writeSlot_draws _ _ _, State.writeSlot_resets _ _ _,
    State.writeSlot_hostMoves _ _ _, State.writeSlot_hostReplies _ _ _⟩
  case written => simp [hread]
  case others => exact fun sl' hne => by rw [hread, if_neg fun h => hne h.1]

/-- Settles O52: such a move is not well formed, and the engine refuses it. -/
theorem accessOutsideTheInterfaceIsRefused : Obligations.AccessOutsideTheInterfaceIsRefused := by
  intro s rest width offset v h
  obtain ⟨hwrite, hread⟩ := wellFormed_eq_false_of_outside h v
  obtain ⟨-, hrefused⟩ := everyInterfaceMoveIsAnswered
  exact ⟨fun hmoves => hrefused s _ rest hmoves hwrite, fun hmoves => hrefused s _ rest hmoves hread⟩

/-- Settles O51: the move is the record of the slot's value. -/
theorem hostRegisterRead : Obligations.HostRegisterRead := by
  intro s rest offset sl hmoves hslot
  rw [step_cons hmoves, hostMove_readReg hslot, State.readSlot_with_hostMoves]
  rfl

/-- Settles O53: the two writes read back cell by cell; the two reads record the byte. -/
theorem hostByteWriteThenRead : Obligations.HostByteWriteThenRead := by
  intro s rest a v
  refine ⟨fun h => ⟨_, step_cons h, ?_, fun x hx => ?_, rfl⟩, fun h => ⟨_, step_cons h, ?_, fun x hx => ?_, rfl⟩,
    fun h => step_cons h, fun h => step_cons h⟩
  · exact (State.readS_write s rest _ _ v).trans (if_pos rfl)
  · exact (State.readS_write s rest _ _ v).trans (if_neg hx)
  · exact (State.readD_write s rest _ _ v).trans (if_pos rfl)
  · exact (State.readD_write s rest _ _ v).trans (if_neg hx)

/-- Settles O55: no cell counts as written, so each reads as the free value of the new reset number. -/
theorem resetMoveClearsTheRegisters : Obligations.ResetMoveClearsTheRegisters := by
  intro s rest hmoves
  refine ⟨_, step_cons hmoves, fun sl => ?_, fun a => ⟨rfl, rfl⟩, rfl, rfl⟩
  cases sl <;> rfl

/-- Settles O49: the sixteen offsets, each four times its index. -/
theorem registerWindowMap : Obligations.RegisterWindowMap :=
  ⟨rfl, rfl, rfl, rfl, rfl, rfl, rfl, rfl, rfl, rfl, rfl, rfl, rfl, rfl, rfl, rfl⟩

/-- Settles O3: the six words are the ones the encoder answers. -/
theorem tableWordsDecodeToTheirCommands : Obligations.TableWordsDecodeToTheirCommands :=
  ⟨decode_encode .extsize, decode_encode .imgsize, decode_encode .expand, decode_encode .contract, decode_encode .encode,
    decode_encode .decode⟩

end Sys2Proof.Proofs
end

section
/-!
The invariant of the machine (R14, R18, R19, R26, R57): every command keeps it, every host move keeps it, so every step does; and
what a command word leaves in `STATUS` (R103, R104, R106).
-/

namespace Sys2Proof.Machine

open Sys2Proof.Claim

/-! ### `STATUS` -/

/-- The code of every error kind is legal in `STATUS` (R14, R100). -/
theorem State.statusLegal_of_kind {s : State} (k : ErrorKind) (h : s.status = statusWord k.code) : s.statusLegal := by
  cases k with
  | inputTooSmall => exact .inr (.inl h)
  | outputTooSmall => exact .inr (.inr (.inl h))
  | tooLarge => exact .inr (.inr (.inr (.inl h)))
  | invalidArguments => exact .inr (.inr (.inr (.inr h)))

/-- `STATUS` holds a legal code after every command (R14, R103, R104). -/
theorem CommandEffect.statusLegal {s t : State} {i : Instr} (h : CommandEffect s i t) : t.statusLegal := by
  cases h with
  | fails _ k => exact State.statusLegal_of_kind k rfl
  | _ => exact .inl rfl

/-- A command word, legal or not, fails and changes `CMD` and `STATUS`, or runs its command after `CMD` is written (R47, R51). -/
theorem issueCommand_cases (w : Word) (s : State) :
    issueCommand w s = .next { s with cmd := w, status := statusWord (ErrorKind.code .invalidArguments) } ∨
      ∃ i, issueCommand w s = .next (commandNext i { s with cmd := w }) := by
  cases hw : decode w with
  | illegal why => exact .inl (issueCommand_illegal hw s)
  | command i => exact .inr ⟨i, (issueCommand_command hw s).trans (exec_eq i _)⟩

/-- After a command word `STATUS` holds a legal code and `CMD` the word (R13, R14). -/
theorem statusLegal_and_cmd_of_issueCommand {w : Word} {s t : State} (h : issueCommand w s = .next t) :
    t.statusLegal ∧ t.cmd = w := by
  obtain e | ⟨i, e⟩ := issueCommand_cases w s
  all_goals obtain rfl := Host.Outcome.next.inj (h.symm.trans e)
  · exact ⟨State.statusLegal_of_kind .invalidArguments rfl, rfl⟩
  · have heffect := commandEffect_commandNext i { s with cmd := w }
    exact ⟨heffect.statusLegal, heffect.keeps_operands.1⟩

/-- A command that does not end with `STATUS` 0 has raised a kind (R106). -/
theorem commandNext_of_status_ne_zero {i : Instr} {s : State} (h : (commandNext i s).status ≠ 0#32) :
    ∃ k : ErrorKind, commandNext i s = { s with status := statusWord k.code } := by
  cases hf : raisedKind i s with
  | some k => exact ⟨k, commandNext_of_some hf⟩
  | none =>
    rw [commandNext_of_none hf] at h
    cases i <;> exact absurd rfl h

/-! ### The result registers -/

/-- A register that holds a number holds at most that number. -/
theorem toNat_ofNat_word_le (n : Nat) : (BitVec.ofNat 32 n).toNat ≤ n := by
  rw [BitVec.toNat_ofNat]
  exact Nat.mod_le _ _

/-- The length IMGSIZE reports is whole rows, at least one, within the bound of R57. -/
theorem paddedLen_spec {s : State} (hlo : 1 ≤ s.rowPix.toNat) (hhi : s.rowPix.toNat ≤ 16777215)
    (hn : s.srcLen.toNat < 16777216) :
    3 * s.rowPix.toNat ∣ paddedLen s ∧ 0 < paddedLen s ∧ paddedLen s < 184549389 := by
  have hrow : 0 < 3 * s.rowPix.toNat := by omega
  obtain ⟨hdvd, hle, -⟩ := padToRows_spec Config.rowPadRule (usedLen s.srcLen.toNat) hrow
  have hlt : paddedLen s < usedLen s.srcLen.toNat + 3 * s.rowPix.toNat := padToRows_ceil_lt _ hrow
  have hmax := usedLen_le hn
  have hpos : 0 < usedLen s.srcLen.toNat := by simp [usedLen]
  exact ⟨hdvd, Nat.lt_of_lt_of_le hpos hle, by omega⟩

/-- The reported length of a completed command is in bounds (R18, R57). -/
theorem rlen_completed_lt {i : Instr} {s : State} (h : s.rlen.toNat < 184549389) (hok : raisedKind i s = none) :
    (completed i s).rlen.toNat < 184549389 := by
  have hused : s.srcLen.toNat < 16777216 → usedLen s.srcLen.toNat < 184549389 :=
    fun hn => Nat.lt_of_le_of_lt (usedLen_le hn) (by decide)
  cases i with
  | extsize => exact Nat.lt_of_le_of_lt (toNat_ofNat_word_le _) (hused ((raisedKind_extsize_eq_none_iff s).mp hok))
  | imgsize =>
    obtain ⟨⟨hlo, hhi⟩, hn⟩ := (raisedKind_imgsize_eq_none_iff s).mp hok
    obtain ⟨-, -, hmax⟩ := paddedLen_spec hlo hhi hn
    exact Nat.lt_of_le_of_lt (toNat_ofNat_word_le _) hmax
  | expand => rwa [completed, State.setStatus_rlen, State.setPixels_rlen]
  | contract => rwa [completed]
  | encode => exact Nat.lt_of_le_of_lt (toNat_ofNat_word_le _) (hused ((raisedKind_encode_eq_none_iff s).mp hok).1)
  | decode =>
    exact Nat.lt_of_le_of_lt (toNat_ofNat_word_le _) (Nat.lt_trans (declaredLen_lt s.readS) (by decide))

/-- The shape a successful IMGSIZE reports is in bounds (R19, R57): `WIDTH` × `HEIGHT` pixels are the padded length. -/
theorem resultsBounded_completed_imgsize {s : State} (hok : raisedKind .imgsize s = none)
    (hrlen : (completed .imgsize s).rlen.toNat < 184549389) : (completed .imgsize s).resultsBounded := by
  obtain ⟨⟨hlo, hhi⟩, hn⟩ := (raisedKind_imgsize_eq_none_iff s).mp hok
  obtain ⟨hdvd, hpos, hmax⟩ := paddedLen_spec hlo hhi hn
  have hrows : 0 < paddedLen s / (3 * s.rowPix.toNat) := Nat.div_pos (Nat.le_of_dvd hpos hdvd) (by omega)
  have hle : paddedLen s / (3 * s.rowPix.toNat) ≤ paddedLen s := Nat.div_le_self _ _
  have hheight : (BitVec.ofNat 32 (paddedLen s / (3 * s.rowPix.toNat))).toNat = paddedLen s / (3 * s.rowPix.toNat) := by
    rw [BitVec.toNat_ofNat, Nat.mod_eq_of_lt (by omega)]
  refine ⟨hrlen, hhi, ?image, ?empty⟩
  case image =>
    rw [completed, hheight, channels, Nat.mul_comm 3, width_mul_height_mul_channels hdvd]
    exact hmax
  case empty =>
    rw [completed, ← BitVec.toNat_inj, ← BitVec.toNat_inj, hheight]
    exact iff_of_false (Nat.ne_of_gt hlo) (Nat.ne_of_gt hrows)

/-- Every command keeps the bounds of the result registers: IMGSIZE reports a shape in bounds, the others report none (R18, R19,
R57). -/
theorem resultsBounded_commandNext {s : State} (h : s.resultsBounded) (i : Instr) :
    (commandNext i s).resultsBounded := by
  have heffect := commandEffect_commandNext i s
  obtain ⟨hrlen, himage⟩ := h
  cases hf : raisedKind i s with
  | some k =>
    rw [commandNext_of_some hf]
    exact ⟨hrlen, himage⟩
  | none =>
    rw [commandNext_of_none hf] at heffect ⊢
    have hlen := rlen_completed_lt hrlen hf
    by_cases hi : i = .imgsize
    · subst hi
      exact resultsBounded_completed_imgsize hf hlen
    · obtain ⟨hwidth, hheight⟩ := heffect.keeps_image hi
      rw [State.resultsBounded, hwidth, hheight]
      exact ⟨hlen, himage⟩

/-! ### The memories -/

/-- What a completed command leaves in `D` is in canonical form (R26). -/
theorem wf_memD_completed {i : Instr} {s : State} (h : s.memD.wf) (hok : raisedKind i s = none) :
    (completed i s).memD.wf := by
  cases i with
  | extsize | imgsize | contract => exact h
  | expand => rwa [completed, State.setStatus_memD, State.setPixels_memD]
  | encode =>
    obtain ⟨-, hfits⟩ := (raisedKind_encode_eq_none_iff s).mp hok
    exact wf_encodeOutput _ _ hfits (Nat.le_of_lt s.dstCap.isLt) h
  | decode => exact wf_writeDecoded _ (Nat.le_of_lt (Nat.lt_trans (declaredLen_lt s.readS) (by decide))) _ h

/-- Every command keeps both memories in canonical form (R26). -/
theorem memoriesCanonical_commandNext {s : State} (h : s.memoriesCanonical) (i : Instr) :
    (commandNext i s).memoriesCanonical := by
  obtain ⟨hS, hD⟩ := h
  obtain ⟨-, -, -, -, hkept, -⟩ := (commandEffect_commandNext i s).keeps_operands
  refine ⟨hkept ▸ hS, ?_⟩
  cases hf : raisedKind i s with
  | some k =>
    rw [commandNext_of_some hf]
    exact hD
  | none =>
    rw [commandNext_of_none hf]
    exact wf_memD_completed hD hf

/-! ### The invariant -/

namespace State.Inv

variable {s : State}

/-- The invariant speaks of `STATUS`, the three result registers and the two memories. -/
theorem congr {t : State} (h : s.Inv) (hstatus : t.status = s.status) (hrlen : t.rlen = s.rlen)
    (hwidth : t.width = s.width) (hheight : t.height = s.height) (hS : t.memS = s.memS) (hD : t.memD = s.memD) :
    t.Inv := by
  obtain ⟨hs, hr, hm⟩ := h
  refine ⟨?_, ?_, ?_⟩
  · rwa [statusLegal, hstatus]
  · rwa [resultsBounded, hrlen, hwidth, hheight]
  · rwa [memoriesCanonical, hS, hD]

/-- Every command keeps the invariant (R14, R18, R19, R26). -/
theorem after_commandNext (h : s.Inv) (i : Instr) : (commandNext i s).Inv :=
  ⟨(commandEffect_commandNext i s).statusLegal, resultsBounded_commandNext h.results i,
    memoriesCanonical_commandNext h.memories i⟩

/-- Every command word keeps it, legal or not (R47). -/
theorem after_issueCommand (h : s.Inv) {w : Word} {t : State} (ht : issueCommand w s = .next t) : t.Inv := by
  have hcmd : ({ s with cmd := w } : State).Inv := h.congr rfl rfl rfl rfl rfl rfl
  obtain e | ⟨i, e⟩ := issueCommand_cases w s
  all_goals obtain rfl := Host.Outcome.next.inj (ht.symm.trans e)
  · exact ⟨statusLegal_of_kind .invalidArguments rfl, h.results, h.memories⟩
  · exact hcmd.after_commandNext i

/-- A write of a slot keeps it: `STATUS` and the result registers are read-only to the host (R14, R18, R19). -/
theorem after_writeSlot (h : s.Inv) (sl : Slot) (v : Word) : (s.writeSlot sl v).Inv :=
  h.congr (writeSlot_status sl v s) (writeSlot_rlen sl v s) (writeSlot_width sl v s) (writeSlot_height sl v s)
    (writeSlot_memS sl v s) (writeSlot_memD sl v s)

/-- The record of a reply keeps it (log 2). -/
theorem after_pushReply (h : s.Inv) (r : Reply) : (s.pushReply r).Inv := h.congr rfl rfl rfl rfl rfl rfl

/-- A host byte write keeps it: every address of a space is below 2^32 (R26). -/
theorem after_hostWriteByte (h : s.Inv) {sp : Space} {a : Word} {v : Byte} {t : State}
    (ht : hostWriteByte sp a v s = .next t) : t.Inv := by
  obtain ⟨hstatus, hresults, hS, hD⟩ := h
  cases sp <;> obtain rfl := Host.Outcome.next.inj ht
  · exact ⟨hstatus, hresults, Memory.wf_write hS a.isLt v, hD⟩
  · exact ⟨hstatus, hresults, hS, Memory.wf_write hD a.isLt v⟩

end State.Inv

/-- The invariant holds after reset (R28). -/
theorem inv_reset : State.reset.Inv :=
  ⟨.inl rfl, ⟨by decide, by decide, by decide, by decide⟩, Memory.wf_nil, Memory.wf_nil⟩

/-- Every host move keeps the invariant (R39). -/
theorem State.Inv.after_hostMove {s : State} (h : s.Inv) {mv : HostMove} {t : State} (ht : hostMove mv s = .next t) :
    t.Inv := by
  cases mv with
  | writeReg width offset v =>
    obtain ht | ⟨sl, rfl⟩ := hostMove_writeReg_cases ht
    · exact h.after_issueCommand ht
    · exact h.after_writeSlot sl v
  | readReg width offset =>
    obtain ⟨r, rfl⟩ := hostMove_readReg_cases ht
    exact h.after_pushReply r
  | writeByte sp a v => exact h.after_hostWriteByte ht
  | readByte sp a => cases sp <;> exact Host.Outcome.next.inj ht ▸ h.after_pushReply _
  | reset =>
    obtain rfl := Host.Outcome.next.inj ht
    exact inv_reset.congr rfl rfl rfl rfl rfl rfl

end Sys2Proof.Machine

namespace Sys2Proof.Proofs

open Sys2Proof.Machine

/-- Settles O57: a step is idle or a host move, and every host move keeps the invariant. -/
theorem stepKeepsTheInvariant : Obligations.StepKeepsTheInvariant := by
  intro s t h ht
  cases hmoves : s.hostMoves with
  | nil => exact Host.Outcome.next.inj ((step_nil hmoves).symm.trans ht) ▸ h
  | cons mv rest =>
    rw [step_cons hmoves] at ht
    have hrest : ({ s with hostMoves := rest } : State).Inv := h.congr rfl rfl rfl rfl rfl rfl
    exact hrest.after_hostMove ht

/-- Settles O56: after reset the registers are 0 and the memories empty. -/
theorem resetMeetsTheInvariant : Obligations.ResetMeetsTheInvariant := inv_reset

/-- Settles O41: a command word fails as illegal, or its command raises a kind, or it ends with `STATUS` 0. -/
theorem failedCommandChangesOnlyCmdAndStatus : Obligations.FailedCommandChangesOnlyCmdAndStatus := by
  refine ⟨State.raise_eq, fun s w => ?_⟩
  obtain e | ⟨i, e⟩ := issueCommand_cases w s
  · exact ⟨_, e, fun _ => ⟨.invalidArguments, rfl⟩⟩
  · exact ⟨_, e, commandNext_of_status_ne_zero⟩

/-- Settles O43: a command leaves a legal code, and none of the five is 4, 127 or 128 or has a bit above bit 7. -/
theorem statusHoldsOnlyLegalCodes : Obligations.StatusHoldsOnlyLegalCodes := by
  refine ⟨fun i s t h => ?command, fun s t rest w hmoves h => ?word⟩
  case command =>
    obtain rfl := eq_commandNext h
    exact (commandEffect_commandNext i s).statusLegal
  case word =>
    rw [step_commandMove hmoves] at h
    obtain ⟨hlegal, hcmd⟩ := statusLegal_and_cmd_of_issueCommand h
    refine ⟨hlegal, ?_⟩
    obtain e | e | e | e | e := hlegal <;> rw [e] <;> exact ⟨by decide, by decide, by decide, by decide, hcmd⟩

end Sys2Proof.Proofs
end

section
/-!
What is left of IMGSIZE and ENCODE: the rounding under either reading (R58, U6), the cells that are written (R78), the payload
that is read (R37) and the reach of the pad draw (R76).
-/

namespace Sys2Proof.Machine

open Sys2Proof.Claim

/-- Every cell of `D` below the capacity is written (R78). -/
theorem isSome_get?_encodedMemory (pad : PadDraw) {s : State} (h : encodeFits s) {a : Nat} (ha : a < s.dstCap.toNat) :
    ((encodedMemory pad s).get? a).isSome = true := by
  rw [encodedMemory, usedLen, get?_encodeOutput _ _ h.2]
  split_ifs <;> rfl

/-- The next state of a successful ENCODE (R80). -/
theorem exec_encode_eq {s : State} (h : encodeFits s) : exec .encode s = .next (encoded s.nextPad s) := by
  rw [exec_eq, commandNext_of_none ((raisedKind_encode_eq_none_iff s).mpr h)]
  rfl

/-- ENCODE writes the same whatever `S` holds beyond the payload (R37, R76). -/
theorem encodedMemory_congr (pad : PadDraw) {s s' : State} (hn : s'.srcLen = s.srcLen) (hc : s'.dstCap = s.dstCap)
    (hD : s'.memD = s.memD) (h : ∀ a < s.srcLen.toNat, s'.readS a = s.readS a) :
    encodedMemory pad s' = encodedMemory pad s := by
  rw [encodedMemory, encodedMemory, hn, hc, hD, encodeOutput_congr pad _ h]

/-- The stream up to the end of the payload holds no pad byte (R81). -/
theorem streamByte_of_lt (s : State) (pad pad' : PadDraw) {j : Nat} (hj : j < 3 + s.srcLen.toNat) :
    streamByte s pad j = streamByte s pad' j := by
  rw [streamByte, streamByte, if_pos hj, if_pos hj]

/-- The used cells that are no pad cells come before the end of the payload bits (R76). -/
theorem div_eight_lt_of_not_padCell {n a : Nat} (ha : a < usedLen n) (hpad : ¬ padCell n a) : a / 8 < 3 + n := by
  simp only [usedLen, padCell] at ha hpad
  omega

/-- The pad cells are used cells. -/
theorem lt_usedLen_of_padCell {n a : Nat} (h : padCell n a) : a < usedLen n := by
  obtain ⟨-, -, h⟩ | ⟨-, -, h⟩ := h <;> exact h

/-- Two ENCODEs of one state agree in every cell no pad byte reaches (R76). -/
theorem EncodeResult.readD_eq_of_not_padCell {pad pad' : PadDraw} {s t t' : State} (h : EncodeResult pad s t)
    (h' : EncodeResult pad' s t') {a : Nat} (ha : ¬ padCell s.srcLen.toNat a) : t.readD a = t'.readD a := by
  obtain hused | hfill := Nat.lt_or_ge a (usedLen s.srcLen.toNat)
  · rw [h.stream a hused, h'.stream a hused, streamByte_of_lt s pad pad' (div_eight_lt_of_not_padCell hused ha)]
  · obtain hcap | hcap := Nat.lt_or_ge a s.dstCap.toNat
    · rw [h.zeros a hfill hcap, h'.zeros a hfill hcap]
    · rw [h.beyond a hcap, h'.beyond a hcap]

/-- With two payload bytes in the last group its third byte is `pad1`, and `pad0` is not used (R75). -/
theorem writePayload_pad0 (rd : Nat → Byte) (x y z : Byte) {n : Nat} (hn : n % 3 = 2) (m : Memory) :
    writePayload rd ⟨x, z⟩ n m = writePayload rd ⟨y, z⟩ n m := by
  have hrem : 2 ≤ n - fullBytes n := by simp only [fullBytes]; omega
  have hlast : lastGroup rd ⟨x, z⟩ n = lastGroup rd ⟨y, z⟩ n := by
    simp only [lastGroup, if_pos hrem]
  rw [writePayload, writePayload, hlast]

/-- How far the draw counter moves (R75, log 3). -/
theorem drawsUsed_eq (n : Nat) : drawsUsed n = if n % 3 ≠ 0 then 2 else 0 := by
  rw [drawsUsed, ite_not]

end Sys2Proof.Machine

namespace Sys2Proof.Proofs

open Sys2Proof.Machine Sys2Proof.Claim

/-- Settles O11: the outcome of a successful IMGSIZE, and what rounding to rows gives under both rules. -/
theorem rowPaddingUnderEitherReading : Obligations.RowPaddingUnderEitherReading := by
  intro rule s hlo hhi hn
  obtain ⟨_, _⟩ | ⟨_, _, _, _⟩ | ⟨_, _, _, e⟩ := imgsizeWith_cases rule s
  · omega
  · omega
  · have hmax := usedLen_le hn
    obtain ⟨hdvd, hle, hadd⟩ := padToRows_spec rule (usedLen s.srcLen.toNat) (show 0 < 3 * s.rowPix.toNat by omega)
    exact ⟨_, e, hdvd, hle, hadd, Nat.lt_of_le_of_lt hadd (by omega)⟩

/-- Settles O26: the zeros and the cells beyond are those of the result; the output lists every cell below the capacity. -/
theorem encodeZeroFillsToTheCapacity : Obligations.EncodeZeroFillsToTheCapacity := by
  intro s hs
  obtain ⟨t, ht, h⟩ := exec_encode_of_encodeFits hs
  obtain rfl := Host.Outcome.next.inj (ht.symm.trans (exec_encode_eq hs))
  refine ⟨_, ht, h.zeros, fun a => isSome_get?_encodedMemory _ hs, fun a ha => ?beyond⟩
  case beyond => exact ⟨get?_encodeOutput_of_cap_le _ _ hs.2 _ ha, h.beyond a ha⟩

/-- Settles O29: the counter moves in the successful case only, and there exactly when the last group is incomplete. -/
theorem encodeTakesAFreshPadDraw : Obligations.EncodeTakesAFreshPadDraw := by
  refine fun s => ⟨rfl, _, exec_eq .encode s, ?_⟩
  cases hf : raisedKind .encode s with
  | some k =>
    rw [commandNext_of_some hf, if_neg fun h => State.statusWord_code_ne_zero k h.1]
    rfl
  | none =>
    rw [commandNext_of_none hf, show (completed .encode s).status = 0#32 from rfl]
    simp only [true_and, ← drawsUsed_eq]
    rfl

/-- Settles O31: the checks read no byte of `S`, and the output only the payload. -/
theorem encodeReadsOnlyThePayload : Obligations.EncodeReadsOnlyThePayload := by
  intro pad s m h
  refine ⟨_, encodeWith_eq pad s, (encodeWith_eq pad _).trans (congrArg _ ?_)⟩
  split_ifs
  · rfl
  · rfl
  · exact congrArg (State.withOutput _ _) (encodedMemory_congr pad rfl rfl rfl h)

/-- Settles O32: the pad draw reaches the stream beyond the payload only, and `pad0` only where one payload byte is left. -/
theorem padDrawReachesOnlyThePadCells : Obligations.PadDrawReachesOnlyThePadCells := by
  refine ⟨fun pad pad' s hs => ?cells, fun x y z s hn => encodeWith_congr_pad (writePayload_pad0 s.readS x y z hn)⟩
  case cells =>
    obtain ⟨t, ht, h⟩ := encodeWith_of_encodeFits pad hs
    obtain ⟨t', ht', h'⟩ := encodeWith_of_encodeFits pad' hs
    exact ⟨t, t', ht, ht', fun a => h.readD_eq_of_not_padCell h',
      fun a ha => h.readD_eq_zero_or_255 (Nat.lt_of_lt_of_le (lt_usedLen_of_padCell ha) hs.2)⟩

end Sys2Proof.Proofs
end
